-- ==== Sys2Proof/Word.lean ====
section
/-! DEFINITION. The number types of the CORE: the INT64 cell value, the PC register and the memory length. -/

namespace Sys2Proof

/-- `INT64`, the range of every cell, operand, ALU result and of RB: [-2^63, 2^63 - 1] (R7, R12). -/
abbrev InInt64 (z : Int) : Prop :=
  -9223372036854775808 ≤ z ∧ z ≤ 9223372036854775807

/-- The value of one memory cell: a signed 64-bit integer (R7, R50). It is an integer and not a vector of bits,
since no operation of the machine reads a bit (R63, D2). -/
@[ext] structure Cell where
  /-- The integer. -/
  val : Int
  /-- It lies in INT64. -/
  inRange : InInt64 val
deriving DecidableEq, Repr

/-- The cell value 0. -/
def Cell.zero : Cell := ⟨0, by decide⟩

/-- The cell value 1. -/
def Cell.one : Cell := ⟨1, by decide⟩

/-- An exact integer result brought back to INT64: `none` where it lies outside. Nothing wraps (R12). -/
def Cell.narrow (z : Int) : Option Cell :=
  if h : InInt64 z then some ⟨z, h⟩ else none

/-- The PC register: 64 bits, unsigned (R9, R21). -/
abbrev PcWord := BitVec 64

/-- `MEM_LEN`: 0 to 2^63 (R8). -/
abbrev MemLen := Fin 9223372036854775809

end Sys2Proof
end

