-- ==== Sys2Proof/Syntax.lean ====
section
/-! DEFINITION. The instructions as terms: addressing modes, parameters, the opcode map and the ten instructions. -/

namespace Sys2Proof

/-- The addressing modes (R56, R86). -/
inductive Mode where
  /-- Digit 0: the operand cell holds a memory address. -/
  | position
  /-- Digit 1: the operand cell is the value itself. -/
  | immediate
  /-- Digit 2: the operand cell holds an offset added to RB. -/
  | relative
deriving DecidableEq, Repr

/-- A parameter: the raw operand cell and its mode (R15). -/
structure Param where
  /-- `p.v`, the operand cell as stored (R94). -/
  v : Cell
  /-- `p.m`. -/
  m : Mode
deriving DecidableEq, Repr

/-- The two kinds of operand of the opcode map (R90). -/
inductive OperandKind where
  /-- `in`: read, resolved to a value (R58). -/
  | read
  /-- `out`: written, resolved to an address (R59). -/
  | write
deriving DecidableEq, Repr

/-- The ten opcodes (R90). -/
inductive Opcode where
  | add | mul | inp | out | jt | jf | lt | eq | arb | hlt
deriving DecidableEq, Repr

/-- The opcode's number, digits 1 and 0 of the instruction word (R90). -/
def Opcode.num : Opcode → Nat
  | .add => 1
  | .mul => 2
  | .inp => 3
  | .out => 4
  | .jt => 5
  | .jf => 6
  | .lt => 7
  | .eq => 8
  | .arb => 9
  | .hlt => 99

/-- `shape(op)`: the operand kinds in the order of their cells (R90). -/
def Opcode.kinds : Opcode → List OperandKind
  | .add | .mul | .lt | .eq => [.read, .read, .write]
  | .inp => [.write]
  | .out | .arb => [.read]
  | .jt | .jf => [.read, .read]
  | .hlt => []

/-- The number n of operand cells, which the opcode alone fixes (R81). -/
def Opcode.arity (op : Opcode) : Nat := op.kinds.length

/-- The instruction's length in cells, 1 + n (R81). -/
def Opcode.length (op : Opcode) : Nat := 1 + op.arity

/-- The instructions, one constructor for each row of the opcode table (R90). -/
inductive Instr where
  /-- ADD p1, p2, p3 (R140). -/
  | add (p1 p2 p3 : Param)
  /-- MUL p1, p2, p3 (R141). -/
  | mul (p1 p2 p3 : Param)
  /-- IN p1 (R150). -/
  | inp (p1 : Param)
  /-- OUT p1 (R152). -/
  | out (p1 : Param)
  /-- JT p1, p2 (R160). -/
  | jt (p1 p2 : Param)
  /-- JF p1, p2 (R161). -/
  | jf (p1 p2 : Param)
  /-- LT p1, p2, p3 (R170). -/
  | lt (p1 p2 p3 : Param)
  /-- EQ p1, p2, p3 (R171). -/
  | eq (p1 p2 p3 : Param)
  /-- ARB p1 (R180). -/
  | arb (p1 : Param)
  /-- HLT (R190). -/
  | hlt
deriving DecidableEq, Repr

/-- The instruction's opcode. -/
def Instr.opcode : Instr → Opcode
  | .add _ _ _ => .add
  | .mul _ _ _ => .mul
  | .inp _ => .inp
  | .out _ => .out
  | .jt _ _ => .jt
  | .jf _ _ => .jf
  | .lt _ _ _ => .lt
  | .eq _ _ _ => .eq
  | .arb _ => .arb
  | .hlt => .hlt

/-- The instruction's parameters, in the order of their cells (R15). -/
def Instr.params : Instr → List Param
  | .add p1 p2 p3 => [p1, p2, p3]
  | .mul p1 p2 p3 => [p1, p2, p3]
  | .inp p1 => [p1]
  | .out p1 => [p1]
  | .jt p1 p2 => [p1, p2]
  | .jf p1 p2 => [p1, p2]
  | .lt p1 p2 p3 => [p1, p2, p3]
  | .eq p1 p2 p3 => [p1, p2, p3]
  | .arb p1 => [p1]
  | .hlt => []

/-- The pseudo-instruction `JMP t` = `JT #1, t` (R98, R163). -/
def Instr.jmp (t : Param) : Instr := .jt ⟨Cell.one, .immediate⟩ t

end Sys2Proof
end

