-- ==== Sys2Proof/Machine/State.lean ====
section
/-! DEFINITION. The state of one CORE instance: the architectural triple (mem, PC, RB) of R36 with MEM_LEN, the ports of
R38 to R45 as R242 lists them, and the host's side of the IN and OUT ports as plain data. -/

namespace Sys2Proof.Machine

/-- Memory: the listed cells as (address, value) pairs. A cell that is not listed reads `Config.unlistedCell`. The
canonical form is `Memory.wf`: addresses strictly rising and no value equal to what an unlisted cell reads as. The unit is
the cell, not the byte: memory has no byte addressing (R50, R63). -/
abbrev Memory := List (Nat × Cell)

/-- The instruction named in an ArithmeticOverflow record (R201). -/
inductive OverflowOp where
  | add | mul | arb
deriving DecidableEq, Repr

/-- An error kind with its record `err_info` (R200, R201). A step that raises one ends with result ERROR (R117). -/
inductive StepError where
  /-- Kind 1: the word is negative or its opcode is not in the map. -/
  | invalidOpcode (pc : PcWord) (raw : Cell)
  /-- Kind 2: a mode digit above 2, or 1 for an Immediate write operand. -/
  | invalidAddressingMode (rawMode : Nat)
  /-- Kind 3: the offending address, and the parameter it came from (`none` for a fetch). -/
  | invalidAddress (addr : Int) (param : Option Param)
  /-- Kind 4: the host answered `in_fail`. -/
  | inputUnavailable
  /-- Kind 5: the instruction and its two INT64 operands. -/
  | arithmeticOverflow (op : OverflowOp) (a b : Cell)
deriving DecidableEq, Repr

/-- The `err_kind` code (R200). -/
def StepError.code : StepError → Nat
  | .invalidOpcode _ _ => 1
  | .invalidAddressingMode _ => 2
  | .invalidAddress _ _ => 3
  | .inputUnavailable => 4
  | .arithmeticOverflow _ _ _ => 5

/-- The response `step_rsp(result, err_kind, err_info)` of the STEP port (R39, R44): the error record is there only when
the result is ERROR. -/
inductive StepRsp where
  | continued
  | halted
  | error (e : StepError)
deriving DecidableEq, Repr

/-- The `result` code: CONTINUE 0, HALT 1, ERROR 2 (R39). -/
def StepRsp.code : StepRsp → Nat
  | .continued => 0
  | .halted => 1
  | .error _ => 2

/-- A transaction on the MEM, IN or OUT port (R40 to R42). -/
inductive PortEvent where
  /-- `MemRead(a, 1)`, answered with `v`. -/
  | memRead (a : Nat) (v : Cell)
  /-- `MemWrite(a, 1, v)`. -/
  | memWrite (a : Nat) (v : Cell)
  /-- `in_req`. -/
  | inReq
  /-- `in_ok(v)`. -/
  | inOk (v : Cell)
  /-- `in_fail`. -/
  | inFail
  /-- `out_valid(v)`. -/
  | outValid (v : Cell)
  /-- `out_ack`. -/
  | outAck
deriving DecidableEq, Repr

/-- The host's answer to an IN request (R41). -/
inductive InAnswer where
  | ok (v : Cell)
  | fail
deriving DecidableEq, Repr

/-- The handshake of the STEP, IN and OUT ports (R39, R41, R42). A step that waits for the host is outstanding (R224). -/
inductive Phase where
  /-- No step outstanding, no request on IN, no value on OUT (R242). -/
  | idle
  /-- An IN step waits for the host's answer; `ea` is its resolved target cell (R118, R150). -/
  | awaitIn (ea : Nat)
  /-- An OUT step presents `v` and waits for `out_ack` (R118, R152). -/
  | awaitOut (v : Cell)
deriving DecidableEq, Repr

/-- Why the machine stops. The spec's own errors are NOT here: a step that raises one responds ERROR and the CORE goes on
accepting steps (R192, R206), so it is a next state. -/
inductive Fault where
  /-- Raised by `commit` where `exec` is applied at a PC so near 2^64 that PC plus the instruction's length does not fit
  the register. No instruction stands there: R25 says a step never writes such a PC, and `step` never answers this
  (its fetch has checked PC < MEM_LEN <= 2^63). Safe: the model stops where it would otherwise have to wrap. -/
  | pcOutOfRange
deriving DecidableEq, Repr

/-- Why the model gives no meaning. -/
inductive Refusal where
  /-- Raised by `exec` for an instruction without a meaning; no arm raises it now. Safe. -/
  | notModelled (mnemonic : String)
  /-- Raised by the host's functions (never by `exec` or `step`): the host touched memory, MEM_LEN, PC or RB while a step
  was outstanding, of which the spec says nothing (R249, U20). Safe. -/
  | hostAccessDuringStep
  /-- Raised by `hostGrow` (never by `exec` or `step`): the host lowered MEM_LEN, which no rule describes (R246, U21). Safe. -/
  | memoryShrunk
  /-- Raised by `boot` (never by `exec` or `step`): the image has more cells than MEM_LEN (R241). Safe. -/
  | imageExceedsMemory
  /-- Raised by `hostWriteCell` (never by `exec` or `step`): the host named a cell outside [0, MEM_LEN) (R51). Safe. -/
  | noSuchCell
deriving DecidableEq, Repr

/-- One CORE instance. -/
structure State where
  /-- Memory (R32, R36). -/
  mem : Memory
  /-- MEM_LEN, the value on the MEMLEN port (R8, R45). -/
  memLen : MemLen
  /-- PC (R21). -/
  pc : PcWord
  /-- RB (R26). -/
  rb : Cell
  /-- The handshake of the STEP, IN and OUT ports (R39, R41, R42). -/
  phase : Phase
  /-- The STEP port's response to the latest step, `none` while none is valid (R39, R44, R242). -/
  rsp : Option StepRsp
  /-- The model's own: the MEM, IN and OUT transactions of the latest step, in order (R250, log entry 6). -/
  events : List PortEvent
  /-- The model's own: the host's coming answers to IN requests, in order (R41, log entry 3). -/
  inAnswers : List InAnswer
  /-- The model's own: how many `out_ack` the host is ready to give (R42, log entry 4). -/
  outAcks : Nat
  /-- The model's own: the values the host has accepted on OUT, oldest first (R152, log entry 5). -/
  outputs : List Cell
deriving DecidableEq, Repr

/-- The state after reset (R240 to R242) of an instance with an empty image and MEM_LEN 0: PC and RB are 0, the ports
are idle, no response is valid. `boot` is the same for any image and any MEM_LEN (log entries 1 and 11). -/
def State.reset : State where
  mem := []
  memLen := 0
  pc := 0
  rb := Cell.zero
  phase := .idle
  rsp := none
  events := []
  inAnswers := []
  outAcks := 0
  outputs := []

/-- What one instruction, one step or one act of the host answers. -/
abbrev Outcome := Host.Outcome State Fault Refusal

end Sys2Proof.Machine
end

