-- ==== Sys2Proof/Machine/Flags.lean ====
section
/-! DEFINITION. The ALU: exact add and multiply with the range check, the signed comparisons and the zero test (R5, R16).
The machine has no flags (R30): a comparison's result is a cell value and a range failure an error. -/

namespace Sys2Proof.Machine

/-- An exact result, or ArithmeticOverflow with the instruction and its operands where it leaves INT64 (R142, R201). -/
def checked (op : OverflowOp) (a b : Cell) (r : Int) : Except StepError Cell :=
  match Cell.narrow r with
  | some c => .ok c
  | none => .error (.arithmeticOverflow op a b)

/-- The ALU's add for ADD (R140). -/
def aluAdd (a b : Cell) : Except StepError Cell := checked .add a b (a.val + b.val)

/-- The ALU's multiply for MUL (R141). -/
def aluMul (a b : Cell) : Except StepError Cell := checked .mul a b (a.val * b.val)

/-- The ALU's add for ARB: RB plus the operand (R180). -/
def aluArb (rb b : Cell) : Except StepError Cell := checked .arb rb b (rb.val + b.val)

/-- The result cell of a comparison: 1 or 0 (R30, R170, R171). -/
def truthCell (b : Bool) : Cell := if b then Cell.one else Cell.zero

/-- Signed less-than (R170). -/
def aluLt (a b : Cell) : Cell := truthCell (decide (a.val < b.val))

/-- Equality (R171). -/
def aluEq (a b : Cell) : Cell := truthCell (decide (a.val = b.val))

/-- The zero test of the jump resolver, exact on the whole value (R163). -/
def isZero (a : Cell) : Bool := decide (a.val = 0)

end Sys2Proof.Machine
end

