-- ==== Sys2Proof/Config.lean ====
section
/-! DEFINITION. What is fixed for the machine and is no state: the content of a cell that nothing has listed, and the
longest instruction. The spec's open parameters (R11: MEM_LEN, the initial image, the host's answers) are all things the
host sets on a running instance, so they stand in State; no result of an instruction is left undefined, so there is no
opaque free value here. -/

namespace Sys2Proof.Config

/-- What a cell of memory that is not listed reads as: 0, the padding of R241 and the content of a cell that the host
appends (R46, R246). -/
def unlistedCell : Cell := Cell.zero

/-- The length of the longest instruction, in cells (R81). -/
def longestInstr : Nat := 4

end Sys2Proof.Config
end

