-- ==== Sys2Proof/Machine/Ops.lean ====
section
/-! DEFINITION. The shared operations: memory, the port events, raising an error (the machine's whole trap entry), the
IN and OUT handshakes, and the commit. -/

namespace Sys2Proof.Machine

/-! ### Memory -/

/-- The value of cell `a` (R40). -/
def Memory.get : Memory → Nat → Cell
  | [], _ => Config.unlistedCell
  | (k, v) :: m, a => if k = a then v else Memory.get m a

/-- The memory without an entry for `a`. -/
def Memory.erase : Memory → Nat → Memory
  | [], _ => []
  | (k, v) :: m, a => if k = a then Memory.erase m a else (k, v) :: Memory.erase m a

/-- The memory with the entry `(a, v)` put in its place by address. -/
def Memory.insert : Memory → Nat → Cell → Memory
  | [], a, v => [(a, v)]
  | (k, w) :: m, a, v => if a < k then (a, v) :: (k, w) :: m else (k, w) :: Memory.insert m a v

/-- Memory with cell `a` set to `v` (R40): one cell, the others as they were. Writing what an unlisted cell reads as
removes the entry, so that equal memories are equal lists. -/
def Memory.put (m : Memory) (a : Nat) (v : Cell) : Memory :=
  if v = Config.unlistedCell then m.erase a else (m.erase a).insert a v

/-- The cells of a list placed from address `a` on (R241). -/
def Memory.place : Memory → Nat → List Cell → Memory
  | m, _, [] => m
  | m, a, c :: cs => Memory.place (m.put a c) (a + 1) cs

/-- Whether every address of the list is above `a`. -/
def Memory.above (a : Nat) (m : Memory) : Bool := m.all fun e => decide (a < e.1)

/-- The canonical form: addresses strictly rising, and no entry that says what an unlisted cell reads as. -/
def Memory.wf : Memory → Bool
  | [] => true
  | (k, v) :: m => decide (v ≠ Config.unlistedCell) && Memory.above k m && Memory.wf m

/-- An address is valid when it lies in [0, MEM_LEN) (R51). -/
abbrev State.validAddr (s : State) (a : Int) : Prop := 0 ≤ a ∧ a < (s.memLen.val : Int)

/-! ### Updates of the state -/

/-- Port transactions recorded, in order (R40 to R42, R250). -/
def State.log (s : State) (es : List PortEvent) : State := { s with events := s.events ++ es }

/-- A `step_req` taken: the response of the step before is valid no longer, and the new step has used no port yet (R39, R44). -/
def State.begin (s : State) : State := { s with rsp := none, events := [] }

/-- `step_rsp(r)` sent: the step is over and the ports are idle (R39). -/
def State.respond (s : State) (r : StepRsp) : State := { s with rsp := some r, phase := .idle }

/-- The step waits in phase IO with this handshake outstanding (R118, R224). -/
def State.wait (s : State) (ph : Phase) : State := { s with rsp := none, phase := ph }

/-- The host's first waiting answer is used up; `rest` are the answers after it (R151). -/
def State.answered (s : State) (rest : List InAnswer) : State := { s with inAnswers := rest }

/-- The host has accepted `v` on the OUT port, with `acks` acceptances left (R42). -/
def State.accepted (s : State) (v : Cell) (acks : Nat) : State :=
  { s with outputs := s.outputs ++ [v], outAcks := acks }

/-! ### Ending a step -/

/-- `raise <Kind>(info)`, the whole of the machine's trap entry (R206): the step ends with result ERROR and the error's
record on the STEP port, and memory, PC and RB are as they were (R117, R205). There is no return from it (R207): the next
`step_req` simply runs the instruction at the unchanged PC. -/
def raise (e : StepError) (s : State) : Outcome := .next (s.respond (.error e))

/-- A check of the step: on an error the step ends with it, and no later phase runs (R117, R204). -/
def orRaise {α : Type} (x : Except StepError α) (s : State) (k : α → Outcome) : Outcome :=
  match x with
  | .ok a => k a
  | .error e => raise e s

/-- The effect an instruction's execute phase computes (R116). -/
structure Effect where
  /-- The memory write (ea, v), if any. -/
  write : Option (Nat × Cell) := none
  /-- The new RB, if any. -/
  rb : Option Cell := none
  /-- The next PC, an exact number (R121). -/
  nextPc : Nat
  /-- Whether the result is HALT; otherwise it is CONTINUE. -/
  halts : Bool := false
deriving DecidableEq, Repr

/-- Memory after the effect's write, if it has one. -/
def Effect.memAfter (eff : Effect) (m : Memory) : Memory :=
  match eff.write with
  | some (a, v) => m.put a v
  | none => m

/-- The MEM transaction of the effect's write, if it has one. -/
def Effect.writeEvents (eff : Effect) : List PortEvent :=
  match eff.write with
  | some (a, v) => [.memWrite a v]
  | none => []

/-- The result of a step with this effect: HALT or CONTINUE (R116). -/
def Effect.result (eff : Effect) : StepRsp := if eff.halts then .halted else .continued

/-- The state after the commit: the write, the new RB and the next PC as one action, then the response (R119). -/
def State.committed (s : State) (eff : Effect) : State :=
  { s with
    mem := eff.memAfter s.mem
    rb := eff.rb.getD s.rb
    pc := BitVec.ofNat 64 eff.nextPc
    events := s.events ++ eff.writeEvents
    rsp := some eff.result
    phase := .idle }

/-- Phase C (R119). The next PC is exact; that it fits the 64-bit register is checked, not assumed (R12, R25). -/
def commit (eff : Effect) (s : State) : Outcome :=
  if eff.nextPc < 18446744073709551616 then .next (s.committed eff) else .fault .pcOutOfRange

/-! ### Phase IO -/

/-- The IN handshake once `in_req` is on the port (R41, R150): `in_ok(v)` is stored in cell `ea` and the step commits,
`in_fail` raises InputUnavailable, and with no answer the step waits. The answer is used up either way (R151). -/
def takeInput (ea : Nat) (s : State) : Outcome :=
  match s.inAnswers with
  | [] => .next (s.wait (.awaitIn ea))
  | .ok v :: rest =>
    commit { write := some (ea, v), nextPc := s.pc.toNat + 2 } ((s.answered rest).log [.inOk v])
  | .fail :: rest => raise .inputUnavailable ((s.answered rest).log [.inFail])

/-- The OUT handshake once `out_valid(v)` is on the port (R42, R152): accepted, the step commits; otherwise it waits. -/
def giveOutput (v : Cell) (s : State) : Outcome :=
  match s.outAcks with
  | 0 => .next (s.wait (.awaitOut v))
  | n + 1 => commit { nextPc := s.pc.toNat + 2 } ((s.accepted v n).log [.outAck])

end Sys2Proof.Machine
end

