-- ==== Sys2Proof/Machine/Operands.lean ====
section
/-! DEFINITION. The address translator: every operand form of R56 to R62, and phase R (R115). -/

namespace Sys2Proof.Machine

/-- EA(p), an exact integer: p.v in Position mode, RB + p.v in Relative mode, none in Immediate mode (R57). RB is the
register at the start of the step, since only the commit writes it (R61). -/
def effectiveAddr (s : State) (p : Param) : Option Int :=
  match p.m with
  | .position => some p.v.val
  | .relative => some (s.rb.val + p.v.val)
  | .immediate => none

/-- `resolve_value(p)`, the value of an `in` operand (R58). -/
def resolveValue (s : State) (p : Param) : Except StepError Cell :=
  match effectiveAddr s p with
  | none => .ok p.v
  | some a => if s.validAddr a then .ok (s.mem.get a.toNat) else .error (.invalidAddress a (some p))

/-- The MEM transactions of a successful `resolve_value(p)`: one read, and none in Immediate mode (R52, R58). -/
def resolutionReads (s : State) (p : Param) : List PortEvent :=
  match effectiveAddr s p with
  | none => []
  | some a => [.memRead a.toNat (s.mem.get a.toNat)]

/-- `resolve_address(p)`, the target cell of an `out` operand (R59). The decoder has refused Immediate mode (R88); a term
that has it all the same raises what the decoder raises (log entry 13). -/
def resolveAddress (s : State) (p : Param) : Except StepError Nat :=
  match effectiveAddr s p with
  | none => .error (.invalidAddressingMode 1)
  | some a => if s.validAddr a then .ok a.toNat else .error (.invalidAddress a (some p))

/-- Phase R for one `in` operand: its value goes on to `k`, with its MEM read recorded; a failed check ends the step
before the access (R55, R115). -/
def withValue (p : Param) (s : State) (k : Cell → State → Outcome) : Outcome :=
  orRaise (resolveValue s p) s fun v => k v (s.log (resolutionReads s p))

/-- Phase R for the `out` operand: its target cell goes on to `k` (R115). -/
def withTarget (p : Param) (s : State) (k : Nat → State → Outcome) : Outcome :=
  orRaise (resolveAddress s p) s fun ea => k ea s

end Sys2Proof.Machine
end

