-- ==== Sys2Proof/Machine/Shapes.lean ====
section
/-! DEFINITION. The two instruction shapes that several instructions share: three operands with a result stored, and the
conditional jump with the jump resolver. -/

namespace Sys2Proof.Machine

/-- Shape F3 (ADD, MUL, LT, EQ): both values, then the target cell, then the ALU's result `f`, which is stored; the next
PC is PC + 4 (R115, R116, R121). Every read comes before the write (R120). -/
def storeResult (f : Cell → Cell → Except StepError Cell) (p1 p2 p3 : Param) (s : State) : Outcome :=
  withValue p1 s fun a s =>
    withValue p2 s fun b s =>
      withTarget p3 s fun ea s =>
        orRaise (f a b) s fun r =>
          commit { write := some (ea, r), nextPc := s.pc.toNat + 4 } s

/-- The jump resolver (R121, R122): a taken jump goes to the target's value, whatever MEM_LEN is, and raises
InvalidAddress where that value is negative; a jump not taken goes to PC + 3. -/
def jumpNext (taken : Bool) (target : Cell) (p2 : Param) (s : State) : Except StepError Nat :=
  if taken then
    if target.val < 0 then .error (.invalidAddress target.val (some p2)) else .ok target.val.toNat
  else .ok (s.pc.toNat + 3)

/-- Shape F2 (JT, JF): both operands are resolved before the condition is tested, the target of a jump not taken too
(R115, R162). -/
def jumpWhen (cond : Cell → Bool) (p1 p2 : Param) (s : State) : Outcome :=
  withValue p1 s fun c s =>
    withValue p2 s fun t s =>
      orRaise (jumpNext (cond c) t p2 s) s fun n => commit { nextPc := n } s

end Sys2Proof.Machine
end

