-- ==== Sys2Proof/Machine/Arithmetic.lean ====
section
/-! DEFINITION. ADD and MUL (R140 to R142). -/

namespace Sys2Proof.Machine

/-- ADD: mem[ea] <- val1 + val2, exact (R140). -/
def execAdd (p1 p2 p3 : Param) (s : State) : Outcome := storeResult aluAdd p1 p2 p3 s

/-- MUL: mem[ea] <- val1 * val2, exact (R141). -/
def execMul (p1 p2 p3 : Param) (s : State) : Outcome := storeResult aluMul p1 p2 p3 s

end Sys2Proof.Machine
end

