-- ==== Sys2Proof/Machine/Compare.lean ====
section
/-! DEFINITION. LT and EQ (R170, R171). -/

namespace Sys2Proof.Machine

/-- LT: mem[ea] <- 1 if val1 < val2 (signed), else 0; no overflow is possible (R170). -/
def execLt (p1 p2 p3 : Param) (s : State) : Outcome :=
  storeResult (fun a b => .ok (aluLt a b)) p1 p2 p3 s

/-- EQ: mem[ea] <- 1 if val1 = val2, else 0 (R171). -/
def execEq (p1 p2 p3 : Param) (s : State) : Outcome :=
  storeResult (fun a b => .ok (aluEq a b)) p1 p2 p3 s

end Sys2Proof.Machine
end

