-- ==== Sys2Proof/Machine/Halt.lean ====
section
/-! DEFINITION. HLT (R190 to R192). -/

namespace Sys2Proof.Machine

/-- HLT: the empty effect with result HALT; PC stays (R190). Nothing records the halt, and the next step runs the same HLT
again (R31, R191). -/
def execHlt (s : State) : Outcome := commit { nextPc := s.pc.toNat, halts := true } s

end Sys2Proof.Machine
end

