-- ==== Sys2Proof/Machine/InputOutput.lean ====
section
/-! DEFINITION. IN and OUT (R150 to R153). -/

namespace Sys2Proof.Machine

/-- IN: the target cell is resolved first, then `in_req` is sent (R118, R150), so a step that fails before phase IO asks
for no input (R151). -/
def execIn (p1 : Param) (s : State) : Outcome :=
  withTarget p1 s fun ea s => takeInput ea (s.log [.inReq])

/-- OUT: the value is resolved first, then presented on the OUT port (R118, R152). -/
def execOut (p1 : Param) (s : State) : Outcome :=
  withValue p1 s fun v s => giveOutput v (s.log [.outValid v])

end Sys2Proof.Machine
end

