-- ==== Sys2Proof/Machine/Jumps.lean ====
section
/-! DEFINITION. JT and JF (R160 to R163). -/

namespace Sys2Proof.Machine

/-- JT: jumps when val1 is not zero (R160). -/
def execJt (p1 p2 : Param) (s : State) : Outcome := jumpWhen (fun c => !isZero c) p1 p2 s

/-- JF: jumps when val1 is zero (R161). -/
def execJf (p1 p2 : Param) (s : State) : Outcome := jumpWhen isZero p1 p2 s

end Sys2Proof.Machine
end

