-- ==== Sys2Proof/Machine/RelativeBase.lean ====
section
/-! DEFINITION. ARB (R180, R181). -/

namespace Sys2Proof.Machine

/-- ARB: RB <- RB + val1, exact; the operand is resolved with the old RB (R61, R180). -/
def execArb (p1 : Param) (s : State) : Outcome :=
  withValue p1 s fun v s =>
    orRaise (aluArb s.rb v) s fun b => commit { rb := some b, nextPc := s.pc.toNat + 2 } s

end Sys2Proof.Machine
end

