-- ==== Sys2Proof/WellFormed.lean ====
section
/-! DEFINITION. Which instruction terms have an encoding: an `out` operand is never in Immediate mode (R88, R59). -/

namespace Sys2Proof

/-- Whether a parameter may stand in an operand position of this kind: an `out` operand in Immediate mode may not (R88). -/
def Param.allowedAs (p : Param) : OperandKind → Bool
  | .read => true
  | .write => decide (p.m ≠ .immediate)

/-- The check of R88 on an instruction: operand 3 of ADD, MUL, LT and EQ, and operand 1 of IN. -/
def Instr.wellFormed (i : Instr) : Bool :=
  (i.params.zip i.opcode.kinds).all fun pk => pk.1.allowedAs pk.2

end Sys2Proof
end

