-- ==== Sys2Proof/Decode.lean ====
section
/-! DEFINITION. The instruction decoder (R82 to R95), total on every INT64 word, and after it the encoder (R96), both
from the decimal layout of R82 and the opcode map of R90. -/

namespace Sys2Proof

/-- `digit(w, k) = (w div 10^k) mod 10` (R13). -/
def digit (w k : Nat) : Nat := w / 10 ^ k % 10

/-- The decoder's two refusing verdicts on a word (R83). -/
inductive WordError where
  /-- The word is negative or its opcode selects no instruction (R84, R91); `raw` is the whole word. -/
  | invalidOpcode (raw : Cell)
  /-- A mode digit above 2, or mode 1 on an `out` operand (R87, R88). -/
  | invalidAddressingMode (rawMode : Nat)
deriving DecidableEq, Repr

/-- Why a list of cells begins with no instruction. -/
inductive DecodeError where
  /-- Its first cell is refused as a word. -/
  | word (e : WordError)
  /-- The list ends before the instruction does. (The machine's own fetch meets the end of memory there and raises
  InvalidAddress, R111, R114.) -/
  | truncated
deriving DecidableEq, Repr

/-- The verdict on a legal word: an opcode and the modes of operands 1 to 3 (R83). -/
structure Decoded where
  op : Opcode
  m1 : Mode
  m2 : Mode
  m3 : Mode
deriving DecidableEq, Repr

/-- The opcode map read from number to opcode (R90); OP = 0 and 10 to 98 select none (R91). -/
def opcodeOf : Nat → Option Opcode
  | 1 => some .add
  | 2 => some .mul
  | 3 => some .inp
  | 4 => some .out
  | 5 => some .jt
  | 6 => some .jf
  | 7 => some .lt
  | 8 => some .eq
  | 9 => some .arb
  | 99 => some .hlt
  | _ => none

/-- The check of one mode digit: 3 to 9 are illegal in every position, also where the instruction has no operand
(kind `none`) (R87); 1 is illegal on an `out` operand (R88). -/
def decodeMode (kind : Option OperandKind) (d : Nat) : Except WordError Mode :=
  match d with
  | 0 => .ok .position
  | 1 => if kind = some .write then .error (.invalidAddressingMode 1) else .ok .immediate
  | 2 => .ok .relative
  | n + 3 => .error (.invalidAddressingMode (n + 3))

/-- The checks of R92, in its order: the opcode, then the digits of operands 1, 2, 3. -/
def decodeWord (w : Cell) : Except WordError Decoded :=
  if w.val < 0 then .error (.invalidOpcode w)
  else
    match opcodeOf (w.val.toNat % 100) with
    | none => .error (.invalidOpcode w)
    | some op =>
      match decodeMode op.kinds[0]? (digit w.val.toNat 2) with
      | .error e => .error e
      | .ok m1 =>
        match decodeMode op.kinds[1]? (digit w.val.toNat 3) with
        | .error e => .error e
        | .ok m2 =>
          match decodeMode op.kinds[2]? (digit w.val.toNat 4) with
          | .error e => .error e
          | .ok m3 => .ok ⟨op, m1, m2, m3⟩

/-- Operand assembly (R94): the decoded word with its operand cells, cell `c k` for operand k. -/
def Decoded.assemble (d : Decoded) (c : Nat → Cell) : Instr :=
  match d.op with
  | .add => .add ⟨c 1, d.m1⟩ ⟨c 2, d.m2⟩ ⟨c 3, d.m3⟩
  | .mul => .mul ⟨c 1, d.m1⟩ ⟨c 2, d.m2⟩ ⟨c 3, d.m3⟩
  | .inp => .inp ⟨c 1, d.m1⟩
  | .out => .out ⟨c 1, d.m1⟩
  | .jt => .jt ⟨c 1, d.m1⟩ ⟨c 2, d.m2⟩
  | .jf => .jf ⟨c 1, d.m1⟩ ⟨c 2, d.m2⟩
  | .lt => .lt ⟨c 1, d.m1⟩ ⟨c 2, d.m2⟩ ⟨c 3, d.m3⟩
  | .eq => .eq ⟨c 1, d.m1⟩ ⟨c 2, d.m2⟩ ⟨c 3, d.m3⟩
  | .arb => .arb ⟨c 1, d.m1⟩
  | .hlt => .hlt

/-- The decoder on a list of cells: the instruction the list begins with, and the cells after it (R80, R81). -/
def decode : List Cell → Except DecodeError (Instr × List Cell)
  | [] => .error .truncated
  | w :: rest =>
    match decodeWord w with
    | .error e => .error (.word e)
    | .ok d =>
      if rest.length < d.op.arity then .error .truncated
      else .ok (d.assemble fun k => rest.getD (k - 1) Config.unlistedCell, rest.drop d.op.arity)

/-! ### The encoder -/

/-- The digit of a mode (R86). -/
def Mode.digit : Mode → Nat
  | .position => 0
  | .immediate => 1
  | .relative => 2

/-- A natural number below 2^63 as a cell. -/
def Cell.ofNat (n : Nat) (h : n < 9223372036854775808) : Cell :=
  ⟨(n : Int), by constructor <;> omega⟩

theorem Mode.digit_le (m : Mode) : m.digit ≤ 2 := by
  cases m <;> decide

theorem Opcode.num_le (op : Opcode) : op.num ≤ 99 := by
  cases op <;> decide

/-- The canonical word `OP + 100*m_1 + 1000*m_2 + 10000*m_3` (R96). -/
def canonicalWord (op : Opcode) (m1 m2 m3 : Mode) : Cell :=
  Cell.ofNat (op.num + 100 * m1.digit + 1000 * m2.digit + 10000 * m3.digit) (by
    have := op.num_le
    have := m1.digit_le
    have := m2.digit_le
    have := m3.digit_le
    omega)

/-- The mode of operand k, and Position (digit 0) for an operand the instruction does not have (R96). -/
def Instr.mode (i : Instr) (k : Nat) : Mode :=
  match i.params[k - 1]? with
  | some p => p.m
  | none => .position

/-- The instruction's canonical encoding: its word, then its operand cells (R80, R96). -/
def encode (i : Instr) : List Cell :=
  canonicalWord i.opcode (i.mode 1) (i.mode 2) (i.mode 3) :: i.params.map Param.v

/-! ### Cells as bits

The machine has no bits (R63); where an interface needs them a cell is its 64-bit two's complement (D2, log entry 10). -/

/-- The cell whose 64-bit two's complement is the low 64 bits of `b`. -/
def Cell.ofBits (b : Nat) : Cell :=
  if h : b % 18446744073709551616 < 9223372036854775808 then
    ⟨((b % 18446744073709551616 : Nat) : Int), by constructor <;> omega⟩
  else
    ⟨((b % 18446744073709551616 : Nat) : Int) - 18446744073709551616, by
      have := Nat.mod_lt b (show 0 < 18446744073709551616 by decide)
      constructor <;> omega⟩

/-- The integer `z` reduced into INT64: a notation for literal cells, equal to `z` wherever `z` lies in INT64.
No instruction uses it. -/
def Cell.ofInt (z : Int) : Cell := Cell.ofBits (z % 18446744073709551616).toNat

/-- `n` cells laid out from the bits of `w`, the first cell in the low 64 bits. -/
def cellsOfBits : Nat → Nat → List Cell
  | 0, _ => []
  | n + 1, w => Cell.ofBits w :: cellsOfBits n (w / 18446744073709551616)

/-- The cells of an instruction that the opcode table gives `nbits` bits, `w`: every bit above them is 0, up to the
longest instruction. -/
def cellsOfRow (nbits w : Nat) : List Cell := cellsOfBits Config.longestInstr (w % 2 ^ nbits)

/-- The instruction that the decoder reads from the bits `w`: the first cell in bits 63..0, the second in bits 127..64,
and so on to the longest instruction. -/
def decodeTableWord (nbits w : Nat) : Option Instr :=
  match decode (cellsOfRow nbits w) with
  | .ok (i, _) => some i
  | .error _ => none

end Sys2Proof
end

