-- ==== Sys2Proof/Machine/Fetch.lean ====
section
/-! DEFINITION. Phases F, D and O of a step: fetching the instruction word, decoding it, and fetching the operand cells
(R111, R112, R114). -/

namespace Sys2Proof.Machine

/-- The cell `k` places after PC (R22). -/
def State.cellAtPc (s : State) (k : Nat) : Cell := s.mem.get (s.pc.toNat + k)

/-- The decoder's refusal as the step's error (R112); InvalidOpcode carries the step's PC (R91, R201). -/
def decodeFailure (pc : PcWord) : WordError → StepError
  | .invalidOpcode raw => .invalidOpcode pc raw
  | .invalidAddressingMode d => .invalidAddressingMode d

/-- The fetch of the cell `k` places after PC: the check against MEM_LEN, then the MEM read (R111, R114, R55). -/
def fetchCell (k : Nat) (s : State) : Except StepError Unit × State :=
  if s.pc.toNat + k < s.memLen.val then
    (.ok (), s.log [.memRead (s.pc.toNat + k) (s.cellAtPc k)])
  else (.error (.invalidAddress ((s.pc.toNat + k : Nat) : Int) none), s)

/-- The fetch of `n` cells from the one `k` places after PC on, in increasing order, up to the first that fails (R114). -/
def fetchCells : Nat → Nat → State → Except StepError Unit × State
  | 0, _, s => (.ok (), s)
  | n + 1, k, s =>
    match fetchCell k s with
    | (.ok (), s1) => fetchCells n (k + 1) s1
    | (.error e, s1) => (.error e, s1)

/-- Phases F, D and O: the instruction at PC, or the first error, with the MEM reads made until then (R124). -/
def fetchInstr (s : State) : Except StepError Instr × State :=
  match fetchCell 0 s with
  | (.error e, s1) => (.error e, s1)
  | (.ok (), s1) =>
    match decodeWord (s.cellAtPc 0) with
    | .error e => (.error (decodeFailure s.pc e), s1)
    | .ok d =>
      match fetchCells d.op.arity 1 s1 with
      | (.error e, s2) => (.error e, s2)
      | (.ok (), s2) => (.ok (d.assemble s.cellAtPc), s2)

/-- The MEM reads of `n` cells fetched from the one `k` places after PC on. -/
def fetchReads (s : State) : Nat → Nat → List PortEvent
  | 0, _ => []
  | n + 1, k => .memRead (s.pc.toNat + k) (s.cellAtPc k) :: fetchReads s n (k + 1)

/-- The cells placed where the next instruction is fetched: from PC on, MEM_LEN raised as far as they need, no step
outstanding. Where PC leaves no room for them below the largest MEM_LEN, PC goes to 0 first. -/
def placeAtPc (cells : List Cell) (s : State) : State :=
  if h : s.pc.toNat + cells.length ≤ 9223372036854775808 then
    { s with
      mem := s.mem.place s.pc.toNat cells
      memLen := if s.memLen.val < s.pc.toNat + cells.length then ⟨s.pc.toNat + cells.length, by omega⟩ else s.memLen
      phase := .idle }
  else
    { s with
      pc := 0
      mem := s.mem.place 0 cells
      memLen := if s.memLen.val < cells.length then Fin.ofNat _ cells.length else s.memLen
      phase := .idle }

end Sys2Proof.Machine
end

