-- ==== Sys2Proof/Machine/Step.lean ====
section
/-! DEFINITION. One step of the CORE (R124). -/

namespace Sys2Proof.Machine

/-- A `step_req` with no step outstanding: phases F, D and O, then the instruction (R124). -/
def startStep (s : State) : Outcome :=
  match fetchInstr s.begin with
  | (.error e, s1) => raise e s1
  | (.ok i, s1) => exec i s1

/-- One step: from `step_req` to its response, or to its wait in phase IO. With a step waiting, that step goes on: the
host issues no new `step_req` before the response (R39), and the IN or OUT handshake is looked at again (R118, R224). -/
def step (s : State) : Host.Outcome State Fault Refusal :=
  match s.phase with
  | .idle => startStep s
  | .awaitIn ea => takeInput ea s
  | .awaitOut v => giveOutput v s

/-- The state with the cells of the bits `w` placed where `step` fetches its next instruction. -/
def State.withFetchWord (s : State) (nbits w : Nat) : State :=
  placeAtPc (cellsOfRow nbits w) s

end Sys2Proof.Machine
end

