-- ==== Sys2Proof/Machine/HostPort.lean ====
section
/-! DEFINITION. What the host may do to an instance (R43, R46, R225, R240 to R246). Each act on memory, MEM_LEN, PC or RB
happens between steps only; during a step the spec says nothing of it and the model refuses (R249, U20). -/

namespace Sys2Proof.Machine

/-- Reset: one instance created from an image of L cells and a MEM_LEN >= L (R240 to R242). -/
def boot (image : List Cell) (memLen : MemLen) : Outcome :=
  if image.length ≤ memLen.val then
    .next { State.reset with mem := Memory.place [] 0 image, memLen := memLen }
  else .refused .imageExceedsMemory

/-- An act that needs no step to be outstanding (R43, R46). -/
def betweenSteps (s : State) (t : State) : Outcome :=
  if s.phase = .idle then .next t else .refused .hostAccessDuringStep

/-- The host writes a cell through its own path to the memory array (R46). -/
def hostWriteCell (a : Nat) (v : Cell) (s : State) : Outcome :=
  if a < s.memLen.val then betweenSteps s { s with mem := s.mem.put a v } else .refused .noSuchCell

/-- The host writes PC through the REG port: any 64-bit value, unchecked (R43). -/
def hostWritePc (pc : PcWord) (s : State) : Outcome := betweenSteps s { s with pc := pc }

/-- The host writes RB through the REG port: any INT64 value (R43). -/
def hostWriteRb (rb : Cell) (s : State) : Outcome := betweenSteps s { s with rb := rb }

/-- The host lengthens memory: the appended cells hold 0, and MEM_LEN never decreases (R46, R246). -/
def hostGrow (memLen : MemLen) (s : State) : Outcome :=
  if s.memLen.val ≤ memLen.val then betweenSteps s { s with memLen := memLen } else .refused .memoryShrunk

/-- The host reads a cell between steps (R46). -/
def hostReadCell (a : Nat) (s : State) : Option Cell :=
  if s.phase = .idle ∧ a < s.memLen.val then some (s.mem.get a) else none

/-- The host reads PC and RB through the REG port between steps (R43). -/
def hostReadRegs (s : State) : Option (PcWord × Cell) :=
  if s.phase = .idle then some (s.pc, s.rb) else none

/-- The host decides one more answer to an IN request, for the outstanding request or a later one (R41). It may do so at
any time. -/
def offerInput (a : InAnswer) (s : State) : State := { s with inAnswers := s.inAnswers ++ [a] }

/-- The host is ready for one more OUT value (R42). It may become so at any time. -/
def offerAck (s : State) : State := { s with outAcks := s.outAcks + 1 }

end Sys2Proof.Machine
end

