-- ==== Sys2Proof/Safety.lean ====
section
/-! DEFINITION. The terms that claims about runs use: the end of a run, a safe response, and the invariants of a state. -/

namespace Sys2Proof.Safety

open Sys2Proof.Machine

/-- The step that the state came from ended the run: its result is HALT or ERROR (R192). -/
def ended (s : State) : Bool :=
  match s.rsp with
  | some .halted => true
  | some (.error _) => true
  | _ => false

/-- The latest step raised no error. -/
def noError (s : State) : Bool :=
  match s.rsp with
  | some (.error _) => false
  | _ => true

/-- A run: steps until one ends it, at most `fuel` of them (R192, D31). -/
def runToEnd : Nat → State → Outcome
  | 0, s => .next s
  | fuel + 1, s =>
    match step s with
    | .next t => if ended t then .next t else runToEnd fuel t
    | .fault f => .fault f
    | .refused r => .refused r

/-- A new step is to begin, and the cell at PC, inside memory, is `w` (R111). -/
def AtWord (s : State) (w : Cell) : Prop :=
  s.phase = .idle ∧ s.pc.toNat < s.memLen.val ∧ s.mem.get s.pc.toNat = w

/-- The step ends with result ERROR and the record `e`, and changes nothing else but the port record (R117, R205, R206). -/
def StepRaises (s : State) (e : StepError) : Prop :=
  ∃ es, step s = .next { s with rsp := some (.error e), phase := .idle, events := es }

/-- A digit that operand position `k` of the opcode may carry (R87, R88). -/
def legalDigit (op : Opcode) (k d : Nat) : Prop := d ≤ 2 ∧ ¬(op.kinds[k - 1]? = some .write ∧ d = 1)

/-- The error that resolving an operand of this kind raises, if any (R58, R59). -/
def operandError (s : State) (kind : OperandKind) (p : Param) : Option StepError :=
  match kind with
  | .read =>
    match resolveValue s p with
    | .ok _ => none
    | .error e => some e
  | .write =>
    match resolveAddress s p with
    | .ok _ => none
    | .error e => some e

/-- The cells of `cs` stand in memory from PC on. -/
def CellsAtPc (s : State) (cs : List Cell) : Prop :=
  s.pc.toNat + cs.length ≤ s.memLen.val ∧ ∀ k v, cs[k]? = some v → s.mem.get (s.pc.toNat + k) = v

/-- Memory is in its canonical form and lists only cells below MEM_LEN (R36: memory is [0, MEM_LEN)). -/
def MemInv (s : State) : Prop :=
  s.mem.wf = true ∧ ∀ e ∈ s.mem, e.1 < s.memLen.val

/-- A waiting step stands at an instruction in memory, an IN's target is a cell of memory, and no response is valid
(R39, R118). -/
def WaitInv (s : State) : Prop :=
  match s.phase with
  | .idle => True
  | .awaitIn ea => s.pc.toNat < s.memLen.val ∧ ea < s.memLen.val ∧ s.rsp = none
  | .awaitOut _ => s.pc.toNat < s.memLen.val ∧ s.rsp = none

/-- The invariant of an instance: the two together. -/
def Inv (s : State) : Prop := MemInv s ∧ WaitInv s

/-- A MEM read. -/
def isRead : PortEvent → Bool
  | .memRead _ _ => true
  | _ => false

/-- A MEM write. -/
def isWrite : PortEvent → Bool
  | .memWrite _ _ => true
  | _ => false

/-- A request on the IN or OUT port. -/
def isIoRequest : PortEvent → Bool
  | .inReq => true
  | .outValid _ => true
  | _ => false

/-- The address of a MEM transaction. -/
def memAddr : PortEvent → Option Nat
  | .memRead a _ => some a
  | .memWrite a _ => some a
  | _ => none

/-- What R40, R55 and R120 say of the MEM port in one step: every address is valid, there are at most 6 reads (at most 4
of instruction and operand cells and 2 of resolution) and at most one write, every read comes before the write, and there
is at most one request on IN or OUT. -/
def PortsWithin (memLen : Nat) (es : List PortEvent) : Prop :=
  (∀ e ∈ es, ∀ a, memAddr e = some a → a < memLen) ∧
  es.countP isRead ≤ 6 ∧ es.countP isWrite ≤ 1 ∧ es.countP isIoRequest ≤ 1 ∧
  es.Pairwise (fun x y => isWrite x = true → isRead y = false)

/-- The port traffic of the latest step is within those bounds, and a waiting step has written nothing yet (R118). -/
def PortInv (s : State) : Prop :=
  PortsWithin s.memLen.val s.events ∧ (s.phase ≠ .idle → s.events.countP isWrite = 0)

end Sys2Proof.Safety
end

