-- ==== Sys2Proof/Certificates/Slice0/Obligations.lean ====
section
/-! DEFINITION. The statements for the provers. Each docstring says which rule of spec/ it formalises. 2^63 is written
9223372036854775808 and 2^64 is 18446744073709551616. -/

open Sys2Proof Sys2Proof.Machine Sys2Proof.Safety

/-! ### Reset and the host -/

/-- R241, R28, R29: after reset with an image of L cells and MEM_LEN >= L, cell i holds IMAGE[i] below L and 0 from L on,
and PC and RB are 0. -/
def Obligations.ResetLoadsTheImage : Prop :=
  ∀ (image : List Cell) (memLen : MemLen), image.length ≤ memLen.val →
    ∃ s, boot image memLen = .next s ∧ s.memLen = memLen ∧ s.pc.toNat = 0 ∧ s.rb.val = 0 ∧
      (∀ i v, image[i]? = some v → s.mem.get i = v) ∧
      (∀ i, image.length ≤ i → s.mem.get i = Cell.zero) ∧
      s.phase = .idle ∧ s.rsp = none

/-- The invariants hold after every reset, so at `State.reset` too, which is the reset of an empty image with MEM_LEN 0.
MEM_LEN 0, no answers, no acceptances and empty records in `State.reset` are the model's choices (log entries 1, 3, 4, 5,
6). -/
def Obligations.ResetHoldsTheInvariants : Prop :=
  (∀ (image : List Cell) (memLen : MemLen) (s : State), boot image memLen = .next s → Inv s ∧ PortInv s) ∧
    boot [] 0 = .next State.reset ∧ Inv State.reset ∧ PortInv State.reset

/-- R246: the host appends cells holding 0 and raises MEM_LEN, and never lowers it. In a state whose memory lists only
cells below MEM_LEN. -/
def Obligations.HostGrowthAppendsZeros : Prop :=
  ∀ (s : State) (n : MemLen), MemInv s → s.phase = .idle →
    (s.memLen.val ≤ n.val → ∃ t, hostGrow n s = .next t ∧ t.memLen = n ∧
      (∀ a, a < s.memLen.val → t.mem.get a = s.mem.get a) ∧
      (∀ a, s.memLen.val ≤ a → a < n.val → t.mem.get a = Cell.zero)) ∧
    (n.val < s.memLen.val → hostGrow n s = .refused .memoryShrunk)

/-- Every act of the host that the model lets through keeps the invariants (R43, R46, R225). -/
def Obligations.HostActsKeepTheInvariants : Prop :=
  ∀ (s t : State), Inv s →
    ((∃ a v, hostWriteCell a v s = .next t) ∨ (∃ pc, hostWritePc pc s = .next t) ∨ (∃ rb, hostWriteRb rb s = .next t) ∨
      (∃ n, hostGrow n s = .next t) ∨ (∃ a, t = offerInput a s) ∨ t = offerAck s) →
    Inv t

/-- R249: while a step is outstanding the spec says nothing of a host access, and the model refuses it. -/
def Obligations.HostActsAreRefusedDuringAStep : Prop :=
  ∀ (s : State), s.phase ≠ .idle →
    (∀ a v, a < s.memLen.val → hostWriteCell a v s = .refused .hostAccessDuringStep) ∧
    (∀ pc, hostWritePc pc s = .refused .hostAccessDuringStep) ∧
    (∀ rb, hostWriteRb rb s = .refused .hostAccessDuringStep) ∧
    (∀ n : MemLen, s.memLen.val ≤ n.val → hostGrow n s = .refused .hostAccessDuringStep) ∧
    (∀ a, hostReadCell a s = none) ∧ hostReadRegs s = none

/-! ### Encoding and decoding -/

/-- R99: the instruction words of the source's examples decode as the table says, with the words' operand cells 5, 6, 7. -/
def Obligations.SourceWordsDecode : Prop :=
  let five := Cell.ofInt 5
  let six := Cell.ofInt 6
  let seven := Cell.ofInt 7
  let dec := fun w => decode [Cell.ofInt w, five, six, seven]
  dec 1 = .ok (.add ⟨five, .position⟩ ⟨six, .position⟩ ⟨seven, .position⟩, []) ∧
  dec 3 = .ok (.inp ⟨five, .position⟩, [six, seven]) ∧
  dec 4 = .ok (.out ⟨five, .position⟩, [six, seven]) ∧
  dec 8 = .ok (.eq ⟨five, .position⟩ ⟨six, .position⟩ ⟨seven, .position⟩, []) ∧
  dec 99 = .ok (.hlt, [five, six, seven]) ∧
  dec 109 = .ok (.arb ⟨five, .immediate⟩, [six, seven]) ∧
  dec 204 = .ok (.out ⟨five, .relative⟩, [six, seven]) ∧
  dec 1001 = .ok (.add ⟨five, .position⟩ ⟨six, .immediate⟩ ⟨seven, .position⟩, []) ∧
  dec 1002 = .ok (.mul ⟨five, .position⟩ ⟨six, .immediate⟩ ⟨seven, .position⟩, []) ∧
  dec 1006 = .ok (.jf ⟨five, .position⟩ ⟨six, .immediate⟩, [seven]) ∧
  dec 1008 = .ok (.eq ⟨five, .position⟩ ⟨six, .immediate⟩ ⟨seven, .position⟩, []) ∧
  dec 1102 = .ok (.mul ⟨five, .immediate⟩ ⟨six, .immediate⟩ ⟨seven, .position⟩, []) ∧
  dec (-99) = .error (.word (.invalidOpcode (Cell.ofInt (-99))))

/-- Decode and encode agree: the encoding of every well-formed instruction, whatever cells follow it, decodes to it. -/
def Obligations.DecodeOfEncode : Prop :=
  ∀ (i : Instr) (rest : List Cell), i.wellFormed = true → decode (encode i ++ rest) = .ok (i, rest)

/-- The other direction: what the decoder reads is well formed, and its canonical encoding has the same operand cells. -/
def Obligations.DecodedInstructionsAreWellFormed : Prop :=
  ∀ (cs rest : List Cell) (i : Instr), decode cs = .ok (i, rest) →
    i.wellFormed = true ∧ ∃ w, cs = w :: i.params.map Param.v ++ rest

/-- R96: the canonical word, and the words that decode to the same instruction: any digits 0 to 2 for absent operands and
any digits of weight 10^5 and above. -/
def Obligations.EncodingsOfAnInstruction : Prop :=
  ∀ (i : Instr), i.wellFormed = true →
    (∃ w, encode i = w :: i.params.map Param.v ∧
      w.val = (i.opcode.num + 100 * (i.mode 1).digit + 1000 * (i.mode 2).digit + 10000 * (i.mode 3).digit : Nat)) ∧
    (∀ k, i.opcode.arity < k → i.mode k = .position) ∧
    ∀ (w : Cell) (a b c h : Nat) (rest : List Cell),
      w.val = (h * 100000 + c * 10000 + b * 1000 + a * 100 + i.opcode.num : Nat) → a ≤ 2 → b ≤ 2 → c ≤ 2 →
      (1 ≤ i.opcode.arity → a = (i.mode 1).digit) → (2 ≤ i.opcode.arity → b = (i.mode 2).digit) →
      (3 ≤ i.opcode.arity → c = (i.mode 3).digit) →
      decode (w :: i.params.map Param.v ++ rest) = .ok (i, rest)

/-- R89: digits of weight 10^5 and above select nothing and are never checked; the two examples. -/
def Obligations.HighDigitsAreIgnored : Prop :=
  (∀ (w w' : Cell) (d : Decoded), 0 ≤ w.val → 0 ≤ w'.val → w.val % 100000 = w'.val % 100000 →
    (decodeWord w = .ok d ↔ decodeWord w' = .ok d) ∧
    (∀ n, decodeWord w = .error (.invalidAddressingMode n) ↔ decodeWord w' = .error (.invalidAddressingMode n))) ∧
  decodeWord (Cell.ofInt 100099) = .ok ⟨.hlt, .position, .position, .position⟩ ∧
  decodeWord (Cell.ofInt 201101) = .ok ⟨.add, .immediate, .immediate, .position⟩

/-- R81: the length of every instruction, which the opcode alone fixes. -/
def Obligations.InstructionLengths : Prop :=
  (∀ i : Instr, (encode i).length = 1 + i.opcode.arity) ∧
  Opcode.add.length = 4 ∧ Opcode.mul.length = 4 ∧ Opcode.lt.length = 4 ∧ Opcode.eq.length = 4 ∧
  Opcode.jt.length = 3 ∧ Opcode.jf.length = 3 ∧
  Opcode.inp.length = 2 ∧ Opcode.out.length = 2 ∧ Opcode.arb.length = 2 ∧ Opcode.hlt.length = 1

/-- R91, R84: OP = 0, OP in 10 to 98 and every negative word raise InvalidOpcode with PC and the whole word; no other word
does. -/
def Obligations.InvalidOpcodes : Prop :=
  ∀ (s : State) (w : Cell), AtWord s w →
    ((w.val < 0 ∨ w.val % 100 = 0 ∨ (10 ≤ w.val % 100 ∧ w.val % 100 ≤ 98)) →
      StepRaises s (.invalidOpcode s.pc w)) ∧
    (¬(w.val < 0 ∨ w.val % 100 = 0 ∨ (10 ≤ w.val % 100 ∧ w.val % 100 ≤ 98)) →
      ∀ t pc raw, step s = .next t → t.rsp ≠ some (.error (.invalidOpcode pc raw)))

/-- R87, R88: a digit above 2 in any of the three positions, or 1 on an `out` operand, raises InvalidAddressingMode with
that digit; the first such digit is the one reported. -/
def Obligations.IllegalModeDigits : Prop :=
  ∀ (s : State) (w : Cell) (op : Opcode) (k : Nat), AtWord s w → 0 ≤ w.val → opcodeOf (w.val.toNat % 100) = some op →
    1 ≤ k → k ≤ 3 → ¬ legalDigit op k (digit w.val.toNat (k + 1)) →
    (∀ j, 1 ≤ j → j < k → legalDigit op j (digit w.val.toNat (j + 1))) →
    StepRaises s (.invalidAddressingMode (digit w.val.toNat (k + 1)))

/-! ### The address translator -/

/-- R57: the effective address of each mode, an exact integer in [-2^64, 2^64 - 2]. -/
def Obligations.EffectiveAddresses : Prop :=
  ∀ (s : State) (v : Cell),
    effectiveAddr s ⟨v, .position⟩ = some v.val ∧
    effectiveAddr s ⟨v, .relative⟩ = some (s.rb.val + v.val) ∧
    effectiveAddr s ⟨v, .immediate⟩ = none ∧
    ∀ (m : Mode) (a : Int), effectiveAddr s ⟨v, m⟩ = some a →
      -18446744073709551616 ≤ a ∧ a ≤ 18446744073709551614

/-- R58: the value of an `in` operand. -/
def Obligations.ValueResolution : Prop :=
  ∀ (s : State) (p : Param),
    (p.m = .immediate → resolveValue s p = .ok p.v) ∧
    ∀ a, effectiveAddr s p = some a →
      (a < 0 ∨ (s.memLen.val : Int) ≤ a → resolveValue s p = .error (.invalidAddress a (some p))) ∧
      (∀ n : Nat, a = (n : Int) → n < s.memLen.val → resolveValue s p = .ok (s.mem.get n))

/-- R59: the target cell of an `out` operand in Position or Relative mode. -/
def Obligations.AddressResolution : Prop :=
  ∀ (s : State) (p : Param) (a : Int), effectiveAddr s p = some a →
    (a < 0 ∨ (s.memLen.val : Int) ≤ a → resolveAddress s p = .error (.invalidAddress a (some p))) ∧
    (∀ n : Nat, a = (n : Int) → n < s.memLen.val → resolveAddress s p = .ok n)

/-- R115, first part: the operands are resolved in order before anything is computed, and the first that fails is the error
of the instruction, for every instruction and every operand; only the reads of the operands before it are on the MEM port,
and nothing else changes. -/
def Obligations.FirstUnresolvedOperandIsReported : Prop :=
  ∀ (i : Instr) (s : State) (k : Nat) (p : Param) (kind : OperandKind) (e : StepError),
    i.params[k]? = some p → i.opcode.kinds[k]? = some kind → operandError s kind p = some e →
    (∀ j q kd, j < k → i.params[j]? = some q → i.opcode.kinds[j]? = some kd → operandError s kd q = none) →
    exec i s = .next { s with
      rsp := some (.error e), phase := .idle,
      events := s.events ++ (i.params.take k).flatMap (resolutionReads s) }

/-- R162: both operands of JT and JF are resolved whether or not the jump is taken: a condition that does not resolve is
the error, and so is a target that does not, also of a jump that is not taken. -/
def Obligations.UntakenJumpResolvesItsTarget : Prop :=
  ∀ (s : State) (p1 p2 : Param),
    (∀ e, resolveValue s p1 = .error e →
      (∃ t, exec (.jt p1 p2) s = .next t ∧ t.rsp = some (.error e) ∧ t.pc = s.pc) ∧
      (∃ t, exec (.jf p1 p2) s = .next t ∧ t.rsp = some (.error e) ∧ t.pc = s.pc)) ∧
    ∀ (c : Cell) (a : Int), resolveValue s p1 = .ok c → effectiveAddr s p2 = some a →
      (a < 0 ∨ (s.memLen.val : Int) ≤ a) →
      (∃ t, exec (.jt p1 p2) s = .next t ∧ t.rsp = some (.error (.invalidAddress a (some p2))) ∧ t.pc = s.pc) ∧
      (∃ t, exec (.jf p1 p2) s = .next t ∧ t.rsp = some (.error (.invalidAddress a (some p2))) ∧ t.pc = s.pc)

/-! ### Memory -/

/-- The canonical form is one: two memories in it that read the same everywhere are the same list. -/
def Obligations.CanonicalMemoryIsUnique : Prop :=
  ∀ m m' : Memory, m.wf = true → m'.wf = true → (∀ a, m.get a = m'.get a) → m = m'

/-! ### Fetch and the whole step -/

/-- A step runs the decoded instruction: when the cell at PC decodes and the instruction lies in memory, the step is the
instruction's exec, with the response of the step before gone and the MEM reads of its 1 + n cells recorded. -/
def Obligations.StepRunsTheDecodedInstruction : Prop :=
  ∀ (s : State) (w : Cell) (d : Decoded), AtWord s w → decodeWord w = .ok d →
    s.pc.toNat + d.op.length ≤ s.memLen.val →
    step s = exec (d.assemble fun k => s.mem.get (s.pc.toNat + k))
      { s with rsp := none, events := fetchReads s d.op.length 0 }

/-- The same for an instruction's cells: whatever cells at PC the decoder reads an instruction from, that instruction runs. -/
def Obligations.StepRunsTheCellsAtPc : Prop :=
  ∀ (s : State) (cs rest : List Cell) (i : Instr), s.phase = .idle → CellsAtPc s cs → decode cs = .ok (i, rest) →
    step s = exec i { s with rsp := none, events := fetchReads s i.opcode.length 0 }

/-- R111: a fetch at PC >= MEM_LEN raises InvalidAddress(PC, none); otherwise the step's first MEM transaction is the read
of the cell at PC. -/
def Obligations.WordFetch : Prop :=
  ∀ (s : State), s.phase = .idle →
    (s.memLen.val ≤ s.pc.toNat → StepRaises s (.invalidAddress s.pc.toNat none)) ∧
    (s.pc.toNat < s.memLen.val → ∀ t, step s = .next t →
      t.events.head? = some (.memRead s.pc.toNat (s.mem.get s.pc.toNat)))

/-- R114: the first operand cell past the end of memory raises InvalidAddress with its address and no parameter. -/
def Obligations.OperandFetchPastTheEnd : Prop :=
  ∀ (s : State) (w : Cell) (d : Decoded) (k : Nat), AtWord s w → decodeWord w = .ok d → 1 ≤ k → k ≤ d.op.arity →
    s.pc.toNat + (k - 1) < s.memLen.val → s.memLen.val ≤ s.pc.toNat + k →
    StepRaises s (.invalidAddress ((s.pc.toNat + k : Nat) : Int) none)

/-- R205: a step that raises an error leaves memory, PC and RB as they were. With it: MEM_LEN, the outputs and the host's
acceptances too, and the host's answers unless the error is InputUnavailable, which uses up the `in_fail` (R117). -/
def Obligations.ErrorsArePrecise : Prop :=
  ∀ (s t : State) (e : StepError), step s = .next t → t.rsp = some (.error e) →
    t.mem = s.mem ∧ t.pc = s.pc ∧ t.rb = s.rb ∧ t.memLen = s.memLen ∧ t.outputs = s.outputs ∧ t.outAcks = s.outAcks ∧
    (e ≠ .inputUnavailable → t.inAnswers = s.inAnswers) ∧
    (e = .inputUnavailable → s.inAnswers = .fail :: t.inAnswers)

/-- R207: a step that raised an error other than InputUnavailable raises it again when it is issued again. -/
def Obligations.ErrorsRepeat : Prop :=
  ∀ (s t : State) (e : StepError), step s = .next t → t.rsp = some (.error e) → e ≠ .inputUnavailable →
    step t = .next t

/-- R202 for the errors that an instruction raises itself (phases R, X and IO): which instruction can raise which kind, and
from what. InvalidAddressingMode arises in exec only for a term that has no encoding (the model's choice, log entry 13). -/
def Obligations.ErrorsByInstruction : Prop :=
  ∀ (i : Instr) (s t : State) (e : StepError), exec i s = .next t → t.rsp = some (.error e) →
    match e with
    | .invalidOpcode _ _ => False
    | .invalidAddressingMode n => n = 1 ∧ i.wellFormed = false
    | .invalidAddress a p =>
        ∃ q, q ∈ i.params ∧ p = some q ∧
          ((effectiveAddr s q = some a ∧ ¬ s.validAddr a) ∨
            (a < 0 ∧ (∃ v, resolveValue s q = .ok v ∧ v.val = a) ∧
              ((∃ p1, i = .jt p1 q) ∨ ∃ p1, i = .jf p1 q)))
    | .inputUnavailable => (∃ p, i = .inp p) ∧ s.inAnswers.head? = some .fail
    | .arithmeticOverflow .add a b => ¬ InInt64 (a.val + b.val) ∧
        ∃ p1 p2 p3, i = .add p1 p2 p3 ∧ resolveValue s p1 = .ok a ∧ resolveValue s p2 = .ok b
    | .arithmeticOverflow .mul a b => ¬ InInt64 (a.val * b.val) ∧
        ∃ p1 p2 p3, i = .mul p1 p2 p3 ∧ resolveValue s p1 = .ok a ∧ resolveValue s p2 = .ok b
    | .arithmeticOverflow .arb a b => ¬ InInt64 (a.val + b.val) ∧ a = s.rb ∧
        ∃ p, i = .arb p ∧ resolveValue s p = .ok b

/-- R25: PC never wraps around: a step that ends with CONTINUE writes PC + n with n <= 4, exactly, or a target below 2^63,
and so never a value >= 2^63 + 3; the host may write any value, and a fetch at such a value faults. -/
def Obligations.PcNeverWraps : Prop :=
  (∀ (s t : State), WaitInv s → step s = .next t → t.rsp = some .continued →
    ((∃ n, n ≤ 4 ∧ s.pc.toNat < s.memLen.val ∧ t.pc.toNat = s.pc.toNat + n) ∨ t.pc.toNat ≤ 9223372036854775807) ∧
    t.pc.toNat < 9223372036854775811) ∧
  ∀ (s : State) (pc : PcWord), s.phase = .idle →
    hostWritePc pc s = .next { s with pc := pc } ∧
    (9223372036854775811 ≤ pc.toNat → StepRaises { s with pc := pc } (.invalidAddress pc.toNat none))

/-- R121: the next PC of every instruction, in the table's order; and of a waiting IN or OUT when it completes. -/
def Obligations.NextPcTable : Prop :=
  (∀ (i : Instr) (s t : State), s.pc.toNat < s.memLen.val → exec i s = .next t →
    t.rsp = some .continued ∨ t.rsp = some .halted →
    match i with
    | .add _ _ _ | .mul _ _ _ | .lt _ _ _ | .eq _ _ _ => t.pc.toNat = s.pc.toNat + 4
    | .inp _ | .out _ | .arb _ => t.pc.toNat = s.pc.toNat + 2
    | .jt p1 p2 => ∃ c v, resolveValue s p1 = .ok c ∧ resolveValue s p2 = .ok v ∧
        (c.val ≠ 0 → (t.pc.toNat : Int) = v.val) ∧ (c.val = 0 → t.pc.toNat = s.pc.toNat + 3)
    | .jf p1 p2 => ∃ c v, resolveValue s p1 = .ok c ∧ resolveValue s p2 = .ok v ∧
        (c.val = 0 → (t.pc.toNat : Int) = v.val) ∧ (c.val ≠ 0 → t.pc.toNat = s.pc.toNat + 3)
    | .hlt => t.pc = s.pc) ∧
  ∀ (s t : State), s.pc.toNat < s.memLen.val → s.phase ≠ .idle → step s = .next t → t.rsp = some .continued →
    t.pc.toNat = s.pc.toNat + 2

/-- A step always answers a next state: the machine never faults, and no instruction is refused (R110, R126, R192). -/
def Obligations.EveryStepAnswers : Prop :=
  ∀ (s : State), WaitInv s → ∃ t, step s = .next t

/-- The invariant that every step keeps: memory stays canonical and below MEM_LEN, a waiting step stays at an instruction
and its target in memory; MEM_LEN itself never changes (R36, R246). -/
def Obligations.StepKeepsTheInvariant : Prop :=
  ∀ (s t : State), Inv s → step s = .next t → Inv t ∧ t.memLen = s.memLen

/-- The port bounds that every step keeps (R40, R55, R120): see `PortsWithin` and `PortInv`. -/
def Obligations.StepKeepsThePortBounds : Prop :=
  ∀ (s t : State), WaitInv s → PortInv s → step s = .next t → PortInv t

/-- R120 by phase: an instruction's own phases add at most 2 MEM reads, each of a cell of memory with the value it held
before the step, at most one MEM write, which comes after every read, and at most one request on IN or OUT. -/
def Obligations.ExecPortTraffic : Prop :=
  ∀ (i : Instr) (s t : State), exec i s = .next t →
    ∃ es, t.events = s.events ++ es ∧ es.countP isRead ≤ 2 ∧ es.countP isWrite ≤ 1 ∧ es.countP isIoRequest ≤ 1 ∧
      es.Pairwise (fun x y => isWrite x = true → isRead y = false) ∧
      (∀ a v, PortEvent.memRead a v ∈ es → a < s.memLen.val ∧ v = s.mem.get a) ∧
      (∀ a v, PortEvent.memWrite a v ∈ es → a < s.memLen.val)

/-- Memory after a new step is memory before it with the step's MEM writes done, and every MEM read of the step gave the
value from before the step (R40, R53, R120). -/
def Obligations.MemoryFollowsTheMemPort : Prop :=
  ∀ (s t : State), s.phase = .idle → step s = .next t →
    (∀ a v, PortEvent.memWrite a v ∈ t.events → t.mem.get a = v) ∧
    (∀ a, (∀ v, PortEvent.memWrite a v ∉ t.events) → t.mem.get a = s.mem.get a) ∧
    (∀ a v, PortEvent.memRead a v ∈ t.events → v = s.mem.get a)

/-- R125, R31, R44: a step depends on memory, MEM_LEN, PC, RB and the host's answers alone; the response and the records of
earlier steps change nothing. -/
def Obligations.StepDependsOnTheTripleAndTheHost : Prop :=
  ∀ (s s' t : State), s.phase = .idle → s'.phase = .idle → s'.mem = s.mem → s'.memLen = s.memLen → s'.pc = s.pc →
    s'.rb = s.rb → s'.inAnswers = s.inAnswers → s'.outAcks = s.outAcks → step s = .next t →
    ∃ t' out, step s' = .next t' ∧ t.outputs = s.outputs ++ out ∧ t'.outputs = s'.outputs ++ out ∧
      t' = { t with outputs := s'.outputs ++ out }

/-- R181: ARB is the only instruction that writes RB, and an instruction other than ARB with no Relative-mode operand does
the same whatever RB holds. -/
def Obligations.OnlyArbWritesRb : Prop :=
  (∀ (i : Instr) (s t : State), exec i s = .next t → t.rb ≠ s.rb → ∃ p, i = .arb p) ∧
  ∀ (i : Instr) (s t : State) (rb : Cell), (∀ p, i ≠ .arb p) → (∀ p ∈ i.params, p.m ≠ .relative) →
    exec i s = .next t → exec i { s with rb := rb } = .next { t with rb := rb }

/-! ### ADD, MUL, LT, EQ -/

/-- ADD where it completes: the exact sum is stored and PC goes on by 4; nothing else changes but the port record. -/
def Obligations.AddStoresTheSum : Prop :=
  ∀ (s : State) (p1 p2 p3 : Param) (a b r : Cell) (ea : Nat), s.pc.toNat < s.memLen.val →
    resolveValue s p1 = .ok a → resolveValue s p2 = .ok b → resolveAddress s p3 = .ok ea → r.val = a.val + b.val →
    ∃ pc : PcWord, pc.toNat = s.pc.toNat + 4 ∧
      exec (.add p1 p2 p3) s = .next { s with
        mem := s.mem.put ea r, pc := pc, rsp := some .continued, phase := .idle,
        events := s.events ++ resolutionReads s p1 ++ resolutionReads s p2 ++ [.memWrite ea r] }

/-- MUL where it completes: the exact product is stored. -/
def Obligations.MulStoresTheProduct : Prop :=
  ∀ (s : State) (p1 p2 p3 : Param) (a b r : Cell) (ea : Nat), s.pc.toNat < s.memLen.val →
    resolveValue s p1 = .ok a → resolveValue s p2 = .ok b → resolveAddress s p3 = .ok ea → r.val = a.val * b.val →
    ∃ pc : PcWord, pc.toNat = s.pc.toNat + 4 ∧
      exec (.mul p1 p2 p3) s = .next { s with
        mem := s.mem.put ea r, pc := pc, rsp := some .continued, phase := .idle,
        events := s.events ++ resolutionReads s p1 ++ resolutionReads s p2 ++ [.memWrite ea r] }

/-- LT where it completes: 1 is stored when val1 < val2 as signed integers, else 0. -/
def Obligations.LtStoresTheComparison : Prop :=
  ∀ (s : State) (p1 p2 p3 : Param) (a b r : Cell) (ea : Nat), s.pc.toNat < s.memLen.val →
    resolveValue s p1 = .ok a → resolveValue s p2 = .ok b → resolveAddress s p3 = .ok ea →
    r.val = (if a.val < b.val then 1 else 0) →
    ∃ pc : PcWord, pc.toNat = s.pc.toNat + 4 ∧
      exec (.lt p1 p2 p3) s = .next { s with
        mem := s.mem.put ea r, pc := pc, rsp := some .continued, phase := .idle,
        events := s.events ++ resolutionReads s p1 ++ resolutionReads s p2 ++ [.memWrite ea r] }

/-- EQ where it completes: 1 is stored when val1 = val2, else 0. -/
def Obligations.EqStoresTheComparison : Prop :=
  ∀ (s : State) (p1 p2 p3 : Param) (a b r : Cell) (ea : Nat), s.pc.toNat < s.memLen.val →
    resolveValue s p1 = .ok a → resolveValue s p2 = .ok b → resolveAddress s p3 = .ok ea →
    r.val = (if a.val = b.val then 1 else 0) →
    ∃ pc : PcWord, pc.toNat = s.pc.toNat + 4 ∧
      exec (.eq p1 p2 p3) s = .next { s with
        mem := s.mem.put ea r, pc := pc, rsp := some .continued, phase := .idle,
        events := s.events ++ resolutionReads s p1 ++ resolutionReads s p2 ++ [.memWrite ea r] }

/-- R142: ADD and MUL are exact; a result outside INT64 is never written and raises ArithmeticOverflow with the operands;
both are commutative, in the result and in the overflow verdict. -/
def Obligations.ArithmeticIsExactOrOverflows : Prop :=
  (∀ a b r : Cell, (aluAdd a b = .ok r ↔ r.val = a.val + b.val) ∧ (aluMul a b = .ok r ↔ r.val = a.val * b.val)) ∧
  (∀ a b r : Cell, (aluAdd a b = .ok r ↔ aluAdd b a = .ok r) ∧ (aluMul a b = .ok r ↔ aluMul b a = .ok r)) ∧
  ∀ (s : State) (p1 p2 p3 : Param) (a b : Cell) (ea : Nat),
    resolveValue s p1 = .ok a → resolveValue s p2 = .ok b → resolveAddress s p3 = .ok ea →
    (¬ InInt64 (a.val + b.val) →
      exec (.add p1 p2 p3) s = .next { s with
        rsp := some (.error (.arithmeticOverflow .add a b)), phase := .idle,
        events := s.events ++ resolutionReads s p1 ++ resolutionReads s p2 }) ∧
    (¬ InInt64 (a.val * b.val) →
      exec (.mul p1 p2 p3) s = .next { s with
        rsp := some (.error (.arithmeticOverflow .mul a b)), phase := .idle,
        events := s.events ++ resolutionReads s p1 ++ resolutionReads s p2 })

/-- The frame of ADD, MUL, LT and EQ, however they end: RB, MEM_LEN and the host's side of IN and OUT are unchanged, and so
is every cell but the one the third operand resolves to; where it does not resolve, or an error is raised, all of memory. -/
def Obligations.StoringInstructionsFrame : Prop :=
  ∀ (s t : State) (p1 p2 p3 : Param),
    (exec (.add p1 p2 p3) s = .next t ∨ exec (.mul p1 p2 p3) s = .next t ∨ exec (.lt p1 p2 p3) s = .next t ∨
      exec (.eq p1 p2 p3) s = .next t) →
    t.rb = s.rb ∧ t.memLen = s.memLen ∧ t.inAnswers = s.inAnswers ∧ t.outAcks = s.outAcks ∧ t.outputs = s.outputs ∧
    (∀ ea, resolveAddress s p3 = .ok ea → ∀ a, a ≠ ea → t.mem.get a = s.mem.get a) ∧
    (∀ e, resolveAddress s p3 = .error e → t.mem = s.mem) ∧
    (∀ e, t.rsp = some (.error e) → t.mem = s.mem)

/-! ### IN and OUT -/

/-- IN where it completes: the host's value is stored in the target cell, the answer is used up, and PC goes on by 2. -/
def Obligations.InStoresTheHostsValue : Prop :=
  ∀ (s : State) (p : Param) (ea : Nat) (v : Cell) (rest : List InAnswer), s.pc.toNat < s.memLen.val →
    resolveAddress s p = .ok ea → s.inAnswers = .ok v :: rest →
    ∃ pc : PcWord, pc.toNat = s.pc.toNat + 2 ∧
      exec (.inp p) s = .next { s with
        mem := s.mem.put ea v, pc := pc, rsp := some .continued, phase := .idle, inAnswers := rest,
        events := s.events ++ [.inReq, .inOk v, .memWrite ea v] }

/-- IN where the host answers `in_fail`: InputUnavailable, and nothing changes but the answer used up (R150). -/
def Obligations.InFailsWithTheHost : Prop :=
  ∀ (s : State) (p : Param) (ea : Nat) (rest : List InAnswer),
    resolveAddress s p = .ok ea → s.inAnswers = .fail :: rest →
    exec (.inp p) s = .next { s with
      rsp := some (.error .inputUnavailable), phase := .idle, inAnswers := rest,
      events := s.events ++ [.inReq, .inFail] }

/-- R151: a value the host delivers is consumed by the step that commits it, and an answer is used up in no other way than
by a commit of its value, in the cell that the waiting IN or the new step's IN resolves to, or by InputUnavailable; a step with any other error sends no `in_req`; and after InputUnavailable
the step may be issued again, sends a fresh request and takes the host's next answer. -/
def Obligations.InputIsConsumedByACommit : Prop :=
  (∀ (s t : State), step s = .next t → t.inAnswers ≠ s.inAnswers →
    ∃ ea, (s.phase = .awaitIn ea ∨
        (s.phase = .idle ∧ ∃ d, decodeWord (s.cellAtPc 0) = .ok d ∧ d.op = .inp ∧
          resolveAddress s ⟨s.cellAtPc 1, d.m1⟩ = .ok ea)) ∧
      ((∃ v, s.inAnswers = .ok v :: t.inAnswers ∧ t.rsp = some .continued ∧ t.mem = s.mem.put ea v) ∨
        (s.inAnswers = .fail :: t.inAnswers ∧ t.rsp = some (.error .inputUnavailable) ∧ t.mem = s.mem))) ∧
  (∀ (s t : State) (e : StepError), s.phase = .idle → step s = .next t → t.rsp = some (.error e) →
    e ≠ .inputUnavailable → PortEvent.inReq ∉ t.events ∧ t.inAnswers = s.inAnswers) ∧
  ∀ (s : State) (w : Cell) (d : Decoded) (ea : Nat) (v : Cell) (rest : List InAnswer),
    AtWord s w → decodeWord w = .ok d → d.op = .inp → s.pc.toNat + 2 ≤ s.memLen.val →
    resolveAddress s ⟨s.mem.get (s.pc.toNat + 1), d.m1⟩ = .ok ea → s.inAnswers = .fail :: .ok v :: rest →
    ∃ t u, step s = .next t ∧ t.rsp = some (.error .inputUnavailable) ∧ t.mem = s.mem ∧ t.pc = s.pc ∧ t.rb = s.rb ∧
      step t = .next u ∧ u.rsp = some .continued ∧ u.mem = s.mem.put ea v ∧ u.pc.toNat = s.pc.toNat + 2 ∧
      u.inAnswers = rest

/-- OUT where it completes: the value goes out, one acceptance is used up, and PC goes on by 2. -/
def Obligations.OutEmitsTheValue : Prop :=
  ∀ (s : State) (p : Param) (v : Cell) (n : Nat), s.pc.toNat < s.memLen.val →
    resolveValue s p = .ok v → s.outAcks = n + 1 →
    ∃ pc : PcWord, pc.toNat = s.pc.toNat + 2 ∧
      exec (.out p) s = .next { s with
        pc := pc, rsp := some .continued, phase := .idle, outAcks := n, outputs := s.outputs ++ [v],
        events := s.events ++ resolutionReads s p ++ [.outValid v, .outAck] }

/-- IN and OUT wait where the host gives no answer: the request stands on the port, no response is valid, and memory, PC, RB
and the host's side are unchanged (R41, R42, R118). -/
def Obligations.IoWaitsForTheHost : Prop :=
  (∀ (s : State) (p : Param) (ea : Nat), resolveAddress s p = .ok ea → s.inAnswers = [] →
    exec (.inp p) s = .next { s with rsp := none, phase := .awaitIn ea, events := s.events ++ [.inReq] }) ∧
  ∀ (s : State) (p : Param) (v : Cell), resolveValue s p = .ok v → s.outAcks = 0 →
    exec (.out p) s = .next { s with
      rsp := none, phase := .awaitOut v, events := s.events ++ resolutionReads s p ++ [.outValid v] }

/-- R224: nothing changes state during a wait, and the answer, a value or a failure, or the acceptance ends it; a step waits
only inside IN or OUT. -/
def Obligations.WaitsEndWithTheAnswer : Prop :=
  (∀ (s : State) (ea : Nat), s.phase = .awaitIn ea → s.rsp = none → s.inAnswers = [] → step s = .next s) ∧
  (∀ (s : State) (v : Cell), s.phase = .awaitOut v → s.rsp = none → s.outAcks = 0 → step s = .next s) ∧
  (∀ (s : State) (ea : Nat) (v : Cell) (rest : List InAnswer), s.phase = .awaitIn ea → s.pc.toNat < s.memLen.val →
    s.inAnswers = .ok v :: rest →
    ∃ pc : PcWord, pc.toNat = s.pc.toNat + 2 ∧
      step s = .next { s with
        mem := s.mem.put ea v, pc := pc, rsp := some .continued, phase := .idle, inAnswers := rest,
        events := s.events ++ [.inOk v, .memWrite ea v] }) ∧
  (∀ (s : State) (v : Cell) (n : Nat), s.phase = .awaitOut v → s.pc.toNat < s.memLen.val → s.outAcks = n + 1 →
    ∃ pc : PcWord, pc.toNat = s.pc.toNat + 2 ∧
      step s = .next { s with
        pc := pc, rsp := some .continued, phase := .idle, outAcks := n, outputs := s.outputs ++ [v],
        events := s.events ++ [.outAck] }) ∧
  (∀ (s : State) (ea : Nat) (rest : List InAnswer), s.phase = .awaitIn ea → s.inAnswers = .fail :: rest →
    ∃ t, step s = .next t ∧ t.phase = .idle ∧ t.rsp = some (.error .inputUnavailable) ∧ t.mem = s.mem ∧ t.pc = s.pc) ∧
  ∀ (i : Instr) (s t : State), s.phase = .idle → exec i s = .next t → t.phase ≠ .idle →
    (∃ p, i = .inp p) ∨ ∃ p, i = .out p

/-- R211: only the host can cancel a step, and only one waiting on IN, by answering `in_fail`: it ends with InputUnavailable
and commits nothing. A step waiting on OUT never ends with an error. -/
def Obligations.OnlyAWaitingInCanBeCancelled : Prop :=
  (∀ (s : State) (ea : Nat) (rest : List InAnswer), s.phase = .awaitIn ea → s.inAnswers = .fail :: rest →
    step s = .next { s with
      rsp := some (.error .inputUnavailable), phase := .idle, inAnswers := rest, events := s.events ++ [.inFail] }) ∧
  ∀ (s t : State) (v : Cell) (e : StepError), s.phase = .awaitOut v → step s = .next t → t.rsp ≠ some (.error e)

/-- The frame of IN, however it ends: RB, MEM_LEN and the OUT side are unchanged, and so is every cell but the one the
operand resolves to; where it does not resolve, or the step waits or fails, all of memory. -/
def Obligations.InFrame : Prop :=
  ∀ (s t : State) (p : Param), exec (.inp p) s = .next t →
    t.rb = s.rb ∧ t.memLen = s.memLen ∧ t.outAcks = s.outAcks ∧ t.outputs = s.outputs ∧
    (∀ ea, resolveAddress s p = .ok ea → ∀ a, a ≠ ea → t.mem.get a = s.mem.get a) ∧
    (∀ e, resolveAddress s p = .error e → t.mem = s.mem ∧ t.inAnswers = s.inAnswers) ∧
    (t.rsp ≠ some .continued → t.mem = s.mem)

/-- The frame of the instructions that store nothing, OUT, JT, JF, ARB and HLT, however they end: all of memory, MEM_LEN and
the IN side are unchanged; RB is unchanged but for ARB, and the OUT side but for OUT. -/
def Obligations.NonStoringInstructionsFrame : Prop :=
  ∀ (i : Instr) (s t : State),
    ((∃ p, i = .out p) ∨ (∃ p1 p2, i = .jt p1 p2) ∨ (∃ p1 p2, i = .jf p1 p2) ∨ (∃ p, i = .arb p) ∨ i = .hlt) →
    exec i s = .next t →
    t.mem = s.mem ∧ t.memLen = s.memLen ∧ t.inAnswers = s.inAnswers ∧ ((∀ p, i ≠ .arb p) → t.rb = s.rb) ∧
    ((∀ p, i ≠ .out p) → t.outputs = s.outputs ∧ t.outAcks = s.outAcks)

/-! ### JT, JF -/

/-- JT where it completes: taken on every non-zero value, to the target's value; otherwise on by 3. -/
def Obligations.JtJumpsOnNonZero : Prop :=
  ∀ (s : State) (p1 p2 : Param) (c v : Cell), s.pc.toNat < s.memLen.val →
    resolveValue s p1 = .ok c → resolveValue s p2 = .ok v → (c.val ≠ 0 → 0 ≤ v.val) →
    ∃ pc : PcWord, (pc.toNat : Int) = (if c.val ≠ 0 then v.val else s.pc.toNat + 3) ∧
      exec (.jt p1 p2) s = .next { s with
        pc := pc, rsp := some .continued, phase := .idle,
        events := s.events ++ resolutionReads s p1 ++ resolutionReads s p2 }

/-- JF where it completes: taken on zero only, to the target's value; otherwise on by 3. -/
def Obligations.JfJumpsOnZero : Prop :=
  ∀ (s : State) (p1 p2 : Param) (c v : Cell), s.pc.toNat < s.memLen.val →
    resolveValue s p1 = .ok c → resolveValue s p2 = .ok v → (c.val = 0 → 0 ≤ v.val) →
    ∃ pc : PcWord, (pc.toNat : Int) = (if c.val = 0 then v.val else s.pc.toNat + 3) ∧
      exec (.jf p1 p2) s = .next { s with
        pc := pc, rsp := some .continued, phase := .idle,
        events := s.events ++ resolutionReads s p1 ++ resolutionReads s p2 }

/-- R122: a taken jump to a negative target raises InvalidAddress with the target and its parameter, PC unchanged; a taken
jump to a target past memory is committed, and the next step's fetch raises InvalidAddress. -/
def Obligations.TakenJumpTargets : Prop :=
  ∀ (s : State) (p1 p2 : Param) (c v : Cell), resolveValue s p1 = .ok c → resolveValue s p2 = .ok v →
    (v.val < 0 →
      (c.val ≠ 0 → exec (.jt p1 p2) s = .next { s with
        rsp := some (.error (.invalidAddress v.val (some p2))), phase := .idle,
        events := s.events ++ resolutionReads s p1 ++ resolutionReads s p2 }) ∧
      (c.val = 0 → exec (.jf p1 p2) s = .next { s with
        rsp := some (.error (.invalidAddress v.val (some p2))), phase := .idle,
        events := s.events ++ resolutionReads s p1 ++ resolutionReads s p2 })) ∧
    (0 ≤ v.val → (c.val ≠ 0 → ∃ t, exec (.jt p1 p2) s = .next t ∧ t.rsp = some .continued ∧ (t.pc.toNat : Int) = v.val ∧
        ((s.memLen.val : Int) ≤ v.val → StepRaises t (.invalidAddress v.val none))) ∧
      (c.val = 0 → ∃ t, exec (.jf p1 p2) s = .next t ∧ t.rsp = some .continued ∧ (t.pc.toNat : Int) = v.val ∧
        ((s.memLen.val : Int) ≤ v.val → StepRaises t (.invalidAddress v.val none))))

/-! ### ARB, HLT -/

/-- ARB where it completes: RB becomes the exact sum, PC goes on by 2; the operand is resolved with the old RB. -/
def Obligations.ArbAdjustsRb : Prop :=
  ∀ (s : State) (p : Param) (v b : Cell), s.pc.toNat < s.memLen.val →
    resolveValue s p = .ok v → b.val = s.rb.val + v.val →
    ∃ pc : PcWord, pc.toNat = s.pc.toNat + 2 ∧
      exec (.arb p) s = .next { s with
        rb := b, pc := pc, rsp := some .continued, phase := .idle, events := s.events ++ resolutionReads s p }

/-- ARB where RB plus the operand leaves INT64: ArithmeticOverflow with RB and the operand, nothing changed. -/
def Obligations.ArbOverflows : Prop :=
  ∀ (s : State) (p : Param) (v : Cell), resolveValue s p = .ok v → ¬ InInt64 (s.rb.val + v.val) →
    exec (.arb p) s = .next { s with
      rsp := some (.error (.arithmeticOverflow .arb s.rb v)), phase := .idle,
      events := s.events ++ resolutionReads s p }

/-- R61: an ARB in Relative mode forms its operand's address from the old RB. -/
def Obligations.RelativeArbUsesTheOldRb : Prop :=
  ∀ (s : State) (v b : Cell) (a : Nat), s.pc.toNat < s.memLen.val →
    (a : Int) = s.rb.val + v.val → a < s.memLen.val → b.val = s.rb.val + (s.mem.get a).val →
    ∃ t, exec (.arb ⟨v, .relative⟩) s = .next t ∧ t.rb = b ∧ PortEvent.memRead a (s.mem.get a) ∈ t.events

/-- HLT completes with result HALT and changes nothing else (R190). -/
def Obligations.HltChangesNothing : Prop :=
  ∀ (s : State), s.pc.toNat < s.memLen.val →
    exec .hlt s = .next { s with rsp := some .halted, phase := .idle }

/-- R191: a step after HALT at the same PC returns HALT again and changes nothing. -/
def Obligations.HaltIsIdempotent : Prop :=
  ∀ (s t : State), step s = .next t → t.rsp = some .halted →
    step t = .next t ∧ t.mem = s.mem ∧ t.pc = s.pc ∧ t.rb = s.rb
end

