-- ==== Sys2Proof/Laws/State.lean ====
section
/-! SUPPORT. One lemma per field of State and update of Ops.lean, so that no proof unfolds a record update. -/

namespace Sys2Proof.Machine.State

variable (s : State)

@[simp] theorem log_mem (es : List PortEvent) : (s.log es).mem = s.mem := rfl
@[simp] theorem log_memLen (es : List PortEvent) : (s.log es).memLen = s.memLen := rfl
@[simp] theorem log_pc (es : List PortEvent) : (s.log es).pc = s.pc := rfl
@[simp] theorem log_rb (es : List PortEvent) : (s.log es).rb = s.rb := rfl
@[simp] theorem log_phase (es : List PortEvent) : (s.log es).phase = s.phase := rfl
@[simp] theorem log_rsp (es : List PortEvent) : (s.log es).rsp = s.rsp := rfl
@[simp] theorem log_events (es : List PortEvent) : (s.log es).events = s.events ++ es := rfl
@[simp] theorem log_inAnswers (es : List PortEvent) : (s.log es).inAnswers = s.inAnswers := rfl
@[simp] theorem log_outAcks (es : List PortEvent) : (s.log es).outAcks = s.outAcks := rfl
@[simp] theorem log_outputs (es : List PortEvent) : (s.log es).outputs = s.outputs := rfl

@[simp] theorem begin_mem : (s.begin).mem = s.mem := rfl
@[simp] theorem begin_memLen : (s.begin).memLen = s.memLen := rfl
@[simp] theorem begin_pc : (s.begin).pc = s.pc := rfl
@[simp] theorem begin_rb : (s.begin).rb = s.rb := rfl
@[simp] theorem begin_phase : (s.begin).phase = s.phase := rfl
@[simp] theorem begin_rsp : (s.begin).rsp = none := rfl
@[simp] theorem begin_events : (s.begin).events = [] := rfl
@[simp] theorem begin_inAnswers : (s.begin).inAnswers = s.inAnswers := rfl
@[simp] theorem begin_outAcks : (s.begin).outAcks = s.outAcks := rfl
@[simp] theorem begin_outputs : (s.begin).outputs = s.outputs := rfl

@[simp] theorem respond_mem (r : StepRsp) : (s.respond r).mem = s.mem := rfl
@[simp] theorem respond_memLen (r : StepRsp) : (s.respond r).memLen = s.memLen := rfl
@[simp] theorem respond_pc (r : StepRsp) : (s.respond r).pc = s.pc := rfl
@[simp] theorem respond_rb (r : StepRsp) : (s.respond r).rb = s.rb := rfl
@[simp] theorem respond_phase (r : StepRsp) : (s.respond r).phase = .idle := rfl
@[simp] theorem respond_rsp (r : StepRsp) : (s.respond r).rsp = some r := rfl
@[simp] theorem respond_events (r : StepRsp) : (s.respond r).events = s.events := rfl
@[simp] theorem respond_inAnswers (r : StepRsp) : (s.respond r).inAnswers = s.inAnswers := rfl
@[simp] theorem respond_outAcks (r : StepRsp) : (s.respond r).outAcks = s.outAcks := rfl
@[simp] theorem respond_outputs (r : StepRsp) : (s.respond r).outputs = s.outputs := rfl

@[simp] theorem wait_mem (ph : Phase) : (s.wait ph).mem = s.mem := rfl
@[simp] theorem wait_memLen (ph : Phase) : (s.wait ph).memLen = s.memLen := rfl
@[simp] theorem wait_pc (ph : Phase) : (s.wait ph).pc = s.pc := rfl
@[simp] theorem wait_rb (ph : Phase) : (s.wait ph).rb = s.rb := rfl
@[simp] theorem wait_phase (ph : Phase) : (s.wait ph).phase = ph := rfl
@[simp] theorem wait_rsp (ph : Phase) : (s.wait ph).rsp = none := rfl
@[simp] theorem wait_events (ph : Phase) : (s.wait ph).events = s.events := rfl
@[simp] theorem wait_inAnswers (ph : Phase) : (s.wait ph).inAnswers = s.inAnswers := rfl
@[simp] theorem wait_outAcks (ph : Phase) : (s.wait ph).outAcks = s.outAcks := rfl
@[simp] theorem wait_outputs (ph : Phase) : (s.wait ph).outputs = s.outputs := rfl

@[simp] theorem answered_mem (rest : List InAnswer) : (s.answered rest).mem = s.mem := rfl
@[simp] theorem answered_memLen (rest : List InAnswer) : (s.answered rest).memLen = s.memLen := rfl
@[simp] theorem answered_pc (rest : List InAnswer) : (s.answered rest).pc = s.pc := rfl
@[simp] theorem answered_rb (rest : List InAnswer) : (s.answered rest).rb = s.rb := rfl
@[simp] theorem answered_phase (rest : List InAnswer) : (s.answered rest).phase = s.phase := rfl
@[simp] theorem answered_rsp (rest : List InAnswer) : (s.answered rest).rsp = s.rsp := rfl
@[simp] theorem answered_events (rest : List InAnswer) : (s.answered rest).events = s.events := rfl
@[simp] theorem answered_inAnswers (rest : List InAnswer) : (s.answered rest).inAnswers = rest := rfl
@[simp] theorem answered_outAcks (rest : List InAnswer) : (s.answered rest).outAcks = s.outAcks := rfl
@[simp] theorem answered_outputs (rest : List InAnswer) : (s.answered rest).outputs = s.outputs := rfl

@[simp] theorem accepted_mem (v : Cell) (acks : Nat) : (s.accepted v acks).mem = s.mem := rfl
@[simp] theorem accepted_memLen (v : Cell) (acks : Nat) : (s.accepted v acks).memLen = s.memLen := rfl
@[simp] theorem accepted_pc (v : Cell) (acks : Nat) : (s.accepted v acks).pc = s.pc := rfl
@[simp] theorem accepted_rb (v : Cell) (acks : Nat) : (s.accepted v acks).rb = s.rb := rfl
@[simp] theorem accepted_phase (v : Cell) (acks : Nat) : (s.accepted v acks).phase = s.phase := rfl
@[simp] theorem accepted_rsp (v : Cell) (acks : Nat) : (s.accepted v acks).rsp = s.rsp := rfl
@[simp] theorem accepted_events (v : Cell) (acks : Nat) : (s.accepted v acks).events = s.events := rfl
@[simp] theorem accepted_inAnswers (v : Cell) (acks : Nat) : (s.accepted v acks).inAnswers = s.inAnswers := rfl
@[simp] theorem accepted_outAcks (v : Cell) (acks : Nat) : (s.accepted v acks).outAcks = acks := rfl
@[simp] theorem accepted_outputs (v : Cell) (acks : Nat) : (s.accepted v acks).outputs = s.outputs ++ [v] := rfl

@[simp] theorem committed_mem (eff : Effect) : (s.committed eff).mem = eff.memAfter s.mem := rfl
@[simp] theorem committed_memLen (eff : Effect) : (s.committed eff).memLen = s.memLen := rfl
@[simp] theorem committed_pc (eff : Effect) : (s.committed eff).pc = BitVec.ofNat 64 eff.nextPc := rfl
@[simp] theorem committed_rb (eff : Effect) : (s.committed eff).rb = eff.rb.getD s.rb := rfl
@[simp] theorem committed_phase (eff : Effect) : (s.committed eff).phase = .idle := rfl
@[simp] theorem committed_rsp (eff : Effect) : (s.committed eff).rsp = some eff.result := rfl
@[simp] theorem committed_events (eff : Effect) : (s.committed eff).events = s.events ++ eff.writeEvents := rfl
@[simp] theorem committed_inAnswers (eff : Effect) : (s.committed eff).inAnswers = s.inAnswers := rfl
@[simp] theorem committed_outAcks (eff : Effect) : (s.committed eff).outAcks = s.outAcks := rfl
@[simp] theorem committed_outputs (eff : Effect) : (s.committed eff).outputs = s.outputs := rfl

/-- Two records of port transactions are one. -/
@[simp] theorem log_log (es fs : List PortEvent) : (s.log es).log fs = s.log (es ++ fs) := by
  simp [log]

@[simp] theorem log_nil : s.log [] = s := by
  simp [log]

end Sys2Proof.Machine.State

namespace Sys2Proof.Machine.Effect

@[simp] theorem memAfter_none (m : Memory) (rb : Option Cell) (n : Nat) (h : Bool) :
    (Effect.mk none rb n h).memAfter m = m := rfl

@[simp] theorem memAfter_some (m : Memory) (a : Nat) (v : Cell) (rb : Option Cell) (n : Nat) (h : Bool) :
    (Effect.mk (some (a, v)) rb n h).memAfter m = m.put a v := rfl

@[simp] theorem writeEvents_none (rb : Option Cell) (n : Nat) (h : Bool) :
    (Effect.mk none rb n h).writeEvents = [] := rfl

@[simp] theorem writeEvents_some (a : Nat) (v : Cell) (rb : Option Cell) (n : Nat) (h : Bool) :
    (Effect.mk (some (a, v)) rb n h).writeEvents = [.memWrite a v] := rfl

@[simp] theorem result_continued (w : Option (Nat × Cell)) (rb : Option Cell) (n : Nat) :
    (Effect.mk w rb n false).result = .continued := rfl

@[simp] theorem result_halted (w : Option (Nat × Cell)) (rb : Option Cell) (n : Nat) :
    (Effect.mk w rb n true).result = .halted := rfl

end Sys2Proof.Machine.Effect
end

