-- ==== Sys2Proof/Laws/Ops.lean ====
section
/-! SUPPORT. What each shared operation of Ops.lean can answer, said once. -/

namespace Sys2Proof.Machine

@[simp] theorem validAddr_log (s : State) (es : List PortEvent) (a : Int) :
    (s.log es).validAddr a ↔ s.validAddr a := Iff.rfl

@[simp] theorem raise_eq (e : StepError) (s : State) : raise e s = .next (s.respond (.error e)) := rfl

@[simp] theorem orRaise_ok {α : Type} (a : α) (s : State) (k : α → Outcome) : orRaise (.ok a) s k = k a := rfl

@[simp] theorem orRaise_error {α : Type} (e : StepError) (s : State) (k : α → Outcome) :
    orRaise (.error e) s k = .next (s.respond (.error e)) := rfl

/-- A checked value either ends the step with its error or goes on. -/
theorem orRaise_next {α : Type} {x : Except StepError α} {s t : State} {k : α → Outcome}
    (h : orRaise x s k = .next t) :
    (∃ e, x = .error e ∧ t = s.respond (.error e)) ∨ ∃ a, x = .ok a ∧ k a = .next t := by
  cases x with
  | error e => exact .inl ⟨e, rfl, by simpa using h.symm⟩
  | ok a => exact .inr ⟨a, rfl, h⟩

theorem commit_of_lt {eff : Effect} (s : State) (h : eff.nextPc < 18446744073709551616) :
    commit eff s = .next (s.committed eff) := by
  simp [commit, h]

/-- A commit answers the committed state, and only when the next PC fits the register. -/
theorem commit_next {eff : Effect} {s t : State} (h : commit eff s = .next t) :
    eff.nextPc < 18446744073709551616 ∧ t = s.committed eff := by
  unfold commit at h
  split at h
  · exact ⟨by assumption, by simpa using h.symm⟩
  · cases h

/-- PC plus an instruction's length is exact at an instruction in memory (R25). -/
theorem pc_add_fits {s : State} {n : Nat} (h : s.pc.toNat < s.memLen.val) (hn : n ≤ 4) :
    s.pc.toNat + n < 18446744073709551616 := by
  have := s.memLen.isLt
  omega

/-- What the IN handshake can answer (R41, R150). -/
theorem takeInput_next {ea : Nat} {s t : State} (h : takeInput ea s = .next t) :
    (s.inAnswers = [] ∧ t = s.wait (.awaitIn ea)) ∨
    (∃ v rest, s.inAnswers = .ok v :: rest ∧ s.pc.toNat + 2 < 18446744073709551616 ∧
      t = ((s.answered rest).log [.inOk v]).committed { write := some (ea, v), nextPc := s.pc.toNat + 2 }) ∨
    (∃ rest, s.inAnswers = .fail :: rest ∧
      t = ((s.answered rest).log [.inFail]).respond (.error .inputUnavailable)) := by
  unfold takeInput at h
  split at h
  · exact .inl ⟨by assumption, by simpa using h.symm⟩
  · obtain ⟨hpc, ht⟩ := commit_next h
    exact .inr (.inl ⟨_, _, by assumption, hpc, ht⟩)
  · exact .inr (.inr ⟨_, by assumption, by simpa using h.symm⟩)

/-- What the OUT handshake can answer (R42, R152). -/
theorem giveOutput_next {v : Cell} {s t : State} (h : giveOutput v s = .next t) :
    (s.outAcks = 0 ∧ t = s.wait (.awaitOut v)) ∨
    (∃ n, s.outAcks = n + 1 ∧ s.pc.toNat + 2 < 18446744073709551616 ∧
      t = ((s.accepted v n).log [.outAck]).committed { nextPc := s.pc.toNat + 2 }) := by
  unfold giveOutput at h
  split at h
  · exact .inl ⟨by assumption, by simpa using h.symm⟩
  · obtain ⟨hpc, ht⟩ := commit_next h
    exact .inr ⟨_, by assumption, hpc, ht⟩

theorem takeInput_wait {ea : Nat} {s : State} (h : s.inAnswers = []) :
    takeInput ea s = .next (s.wait (.awaitIn ea)) := by
  simp [takeInput, h]

theorem takeInput_ok {ea : Nat} {s : State} {v : Cell} {rest : List InAnswer} (h : s.inAnswers = .ok v :: rest)
    (hpc : s.pc.toNat + 2 < 18446744073709551616) :
    takeInput ea s =
      .next (((s.answered rest).log [.inOk v]).committed { write := some (ea, v), nextPc := s.pc.toNat + 2 }) := by
  simp only [takeInput, h]
  exact commit_of_lt _ hpc

theorem takeInput_fail {ea : Nat} {s : State} {rest : List InAnswer} (h : s.inAnswers = .fail :: rest) :
    takeInput ea s = .next (((s.answered rest).log [.inFail]).respond (.error .inputUnavailable)) := by
  simp [takeInput, h]

theorem giveOutput_wait {v : Cell} {s : State} (h : s.outAcks = 0) :
    giveOutput v s = .next (s.wait (.awaitOut v)) := by
  simp [giveOutput, h]

theorem giveOutput_ok {v : Cell} {s : State} {n : Nat} (h : s.outAcks = n + 1)
    (hpc : s.pc.toNat + 2 < 18446744073709551616) :
    giveOutput v s = .next (((s.accepted v n).log [.outAck]).committed { nextPc := s.pc.toNat + 2 }) := by
  simp only [giveOutput, h]
  exact commit_of_lt _ hpc

end Sys2Proof.Machine
end

