-- ==== Sys2Proof/Laws/Operands.lean ====
section
/-! SUPPORT. The address translator and the ALU: what they answer, and that recording port transactions does not matter
to them. -/

namespace Sys2Proof.Machine

@[simp] theorem effectiveAddr_log (s : State) (es : List PortEvent) (p : Param) :
    effectiveAddr (s.log es) p = effectiveAddr s p := rfl

@[simp] theorem resolveValue_log (s : State) (es : List PortEvent) (p : Param) :
    resolveValue (s.log es) p = resolveValue s p := rfl

@[simp] theorem resolveAddress_log (s : State) (es : List PortEvent) (p : Param) :
    resolveAddress (s.log es) p = resolveAddress s p := rfl

@[simp] theorem resolutionReads_log (s : State) (es : List PortEvent) (p : Param) :
    resolutionReads (s.log es) p = resolutionReads s p := rfl

/-- The MEM reads of some resolutions in a step that started in `s`: at most `n`, each of a cell of memory and of the
value it holds (R40, R55). -/
def ResolvedReads (s : State) (n : Nat) (es : List PortEvent) : Prop :=
  es.length ≤ n ∧ ∀ e ∈ es, ∃ a, a < s.memLen.val ∧ e = .memRead a (s.mem.get a)

theorem ResolvedReads.nil (s : State) (n : Nat) : ResolvedReads s n [] := by
  simp [ResolvedReads]

theorem ResolvedReads.append {s : State} {m n : Nat} {es fs : List PortEvent} (he : ResolvedReads s m es)
    (hf : ResolvedReads s n fs) : ResolvedReads s (m + n) (es ++ fs) := by
  refine ⟨by simpa using Nat.add_le_add he.1 hf.1, fun e h => ?_⟩
  rcases List.mem_append.1 h with h | h
  · exact he.2 e h
  · exact hf.2 e h

theorem ResolvedReads.mono {s : State} {m n : Nat} {es : List PortEvent} (he : ResolvedReads s m es) (h : m ≤ n) :
    ResolvedReads s n es := ⟨he.1.trans h, he.2⟩

/-- A resolved value's reads: at most one, of a cell of memory (R55, R58). -/
theorem resolutionReads_of_ok {s : State} {p : Param} {v : Cell} (h : resolveValue s p = .ok v) :
    ResolvedReads s 1 (resolutionReads s p) := by
  unfold resolveValue at h
  unfold resolutionReads
  cases ha : effectiveAddr s p with
  | none => exact ResolvedReads.nil s 1
  | some a =>
    rw [ha] at h
    simp only at h
    split at h
    · rename_i hv
      refine ⟨by simp, fun e he => ⟨a.toNat, ?_, by simpa using he⟩⟩
      have h1 : 0 ≤ a := hv.1
      have h2 : a < (s.memLen.val : Int) := hv.2
      omega
    · cases h

/-- A resolved target is a cell of memory (R59). -/
theorem resolveAddress_lt {s : State} {p : Param} {ea : Nat} (h : resolveAddress s p = .ok ea) :
    ea < s.memLen.val := by
  unfold resolveAddress at h
  cases ha : effectiveAddr s p with
  | none => rw [ha] at h; cases h
  | some a =>
    rw [ha] at h
    simp only at h
    split at h
    · rename_i hv
      have h1 : 0 ≤ a := hv.1
      have h2 : a < (s.memLen.val : Int) := hv.2
      cases h
      omega
    · cases h

/-- A value's resolution fails with InvalidAddress only (R62). -/
theorem resolveValue_error {s : State} {p : Param} {e : StepError} (h : resolveValue s p = .error e) :
    ∃ a, e = .invalidAddress a (some p) := by
  unfold resolveValue at h
  split at h
  · cases h
  · split at h
    · cases h
    · cases h
      exact ⟨_, rfl⟩

/-- A target's resolution fails with InvalidAddress, or with the decoder's error for Immediate mode (R59, R62). -/
theorem resolveAddress_error {s : State} {p : Param} {e : StepError} (h : resolveAddress s p = .error e) :
    (∃ a, e = .invalidAddress a (some p)) ∨ e = .invalidAddressingMode 1 := by
  unfold resolveAddress at h
  split at h
  · cases h
    exact .inr rfl
  · split at h
    · cases h
    · cases h
      exact .inl ⟨_, rfl⟩

theorem withValue_ok {p : Param} {s : State} {v : Cell} (h : resolveValue s p = .ok v)
    (k : Cell → State → Outcome) : withValue p s k = k v (s.log (resolutionReads s p)) := by
  simp [withValue, h]

theorem withValue_error {p : Param} {s : State} {e : StepError} (h : resolveValue s p = .error e)
    (k : Cell → State → Outcome) : withValue p s k = .next (s.respond (.error e)) := by
  simp [withValue, h]

theorem withTarget_ok {p : Param} {s : State} {ea : Nat} (h : resolveAddress s p = .ok ea)
    (k : Nat → State → Outcome) : withTarget p s k = k ea s := by
  simp [withTarget, h]

theorem withTarget_error {p : Param} {s : State} {e : StepError} (h : resolveAddress s p = .error e)
    (k : Nat → State → Outcome) : withTarget p s k = .next (s.respond (.error e)) := by
  simp [withTarget, h]

theorem withValue_next {p : Param} {s t : State} {k : Cell → State → Outcome} (h : withValue p s k = .next t) :
    (∃ e, resolveValue s p = .error e ∧ t = s.respond (.error e)) ∨
    ∃ v, resolveValue s p = .ok v ∧ k v (s.log (resolutionReads s p)) = .next t :=
  orRaise_next h

theorem withTarget_next {p : Param} {s t : State} {k : Nat → State → Outcome} (h : withTarget p s k = .next t) :
    (∃ e, resolveAddress s p = .error e ∧ t = s.respond (.error e)) ∨
    ∃ ea, resolveAddress s p = .ok ea ∧ k ea s = .next t :=
  orRaise_next h

/-! ### The ALU -/

theorem narrow_eq_some {z : Int} {c : Cell} : Cell.narrow z = some c ↔ c.val = z := by
  unfold Cell.narrow
  constructor
  · intro h
    split at h
    · cases h
      rfl
    · cases h
  · rintro rfl
    rw [dif_pos c.inRange]

theorem narrow_eq_none {z : Int} : Cell.narrow z = none ↔ ¬ InInt64 z := by
  unfold Cell.narrow
  by_cases h : InInt64 z
  · rw [dif_pos h]
    exact ⟨fun h' => (nomatch h'), fun h' => absurd h h'⟩
  · rw [dif_neg h]
    exact ⟨fun _ => h, fun _ => rfl⟩

/-- A result inside INT64 is the exact one (R142). -/
theorem checked_ok {op : OverflowOp} {a b r : Cell} {z : Int} : checked op a b z = .ok r ↔ r.val = z := by
  unfold checked
  cases h : Cell.narrow z with
  | none =>
    have := narrow_eq_none.1 h
    constructor
    · intro h'
      cases h'
    · rintro rfl
      exact absurd r.inRange this
  | some c =>
    have := narrow_eq_some.1 h
    constructor
    · intro h'
      cases h'
      exact this
    · intro h'
      have : c = r := Cell.ext (by omega)
      rw [this]

/-- A result outside INT64 is ArithmeticOverflow with its operands (R142). -/
theorem checked_error {op : OverflowOp} {a b : Cell} {z : Int} {e : StepError} :
    checked op a b z = .error e ↔ ¬ InInt64 z ∧ e = .arithmeticOverflow op a b := by
  unfold checked
  cases h : Cell.narrow z with
  | none =>
    have hz := narrow_eq_none.1 h
    constructor
    · intro h'
      cases h'
      exact ⟨hz, rfl⟩
    · rintro ⟨-, rfl⟩
      rfl
  | some c =>
    have hc := narrow_eq_some.1 h
    constructor
    · intro h'
      cases h'
    · rintro ⟨hz, -⟩
      exact absurd (hc ▸ c.inRange) hz

end Sys2Proof.Machine
end

