-- ==== Sys2Proof/Laws/Exec.lean ====
section
/-! SUPPORT. What exec can answer, said once: every claim about what all instructions do or leave alone goes through
`exec_next`. -/

namespace Sys2Proof.Machine

/-- The errors of phases R and X (R115, R116): a resolved address or a taken target out of range, an overflow, or an
Immediate `out` operand of a term that the decoder would have refused. -/
inductive ExecError : StepError → Prop where
  | address (a : Int) (p : Param) : ExecError (.invalidAddress a (some p))
  | mode : ExecError (.invalidAddressingMode 1)
  | overflow (op : OverflowOp) (a b : Cell) : ExecError (.arithmeticOverflow op a b)

theorem ExecError.ne_inputUnavailable {e : StepError} (h : ExecError e) : e ≠ .inputUnavailable := by
  cases h <;> intro h <;> cases h

theorem ExecError.ne_invalidOpcode {e : StepError} (h : ExecError e) (pc : PcWord) (raw : Cell) :
    e ≠ .invalidOpcode pc raw := by
  cases h <;> intro h <;> cases h

/-- The ways an instruction started in `s` can answer a next state. -/
inductive ExecResult (i : Instr) (s : State) : State → Prop where
  /-- A check of phase R or X failed, after some resolution reads. -/
  | raised (es : List PortEvent) (e : StepError) (reads : ResolvedReads s 2 es) (kind : ExecError e) :
      ExecResult i s ((s.log es).respond (.error e))
  /-- The instruction committed its effect without IN or OUT. -/
  | done (es : List PortEvent) (eff : Effect) (reads : ResolvedReads s 2 es)
      (target : ∀ a v, eff.write = some (a, v) → a < s.memLen.val ∧ ∃ p ∈ i.params, resolveAddress s p = .ok a)
      (noIo : ∀ p, i ≠ .inp p ∧ i ≠ .out p)
      (base : ∀ b, eff.rb = some b → ∃ p, i = .arb p)
      (pc : (∃ n, eff.nextPc = s.pc.toNat + n ∧ n ≤ i.opcode.length) ∨ eff.nextPc ≤ 9223372036854775807)
      (halt : eff.halts = true → i = .hlt ∧ es = [] ∧ eff.write = none ∧ eff.rb = none ∧ eff.nextPc = s.pc.toNat)
      (fits : eff.nextPc < 18446744073709551616) :
      ExecResult i s ((s.log es).committed eff)
  /-- IN came to its handshake. -/
  | input (p : Param) (ea : Nat) (isIn : i = .inp p) (target : resolveAddress s p = .ok ea) (t : State)
      (answer : takeInput ea (s.log [.inReq]) = .next t) : ExecResult i s t
  /-- OUT came to its handshake. -/
  | output (p : Param) (v : Cell) (isOut : i = .out p) (value : resolveValue s p = .ok v) (t : State)
      (answer : giveOutput v (s.log (resolutionReads s p ++ [.outValid v])) = .next t) : ExecResult i s t

/-! ### exec of each instruction as its shape -/

theorem exec_add (p1 p2 p3 : Param) (s : State) : exec (.add p1 p2 p3) s = storeResult aluAdd p1 p2 p3 s := rfl

theorem exec_mul (p1 p2 p3 : Param) (s : State) : exec (.mul p1 p2 p3) s = storeResult aluMul p1 p2 p3 s := rfl

theorem exec_lt (p1 p2 p3 : Param) (s : State) :
    exec (.lt p1 p2 p3) s = storeResult (fun a b => .ok (aluLt a b)) p1 p2 p3 s := rfl

theorem exec_eq (p1 p2 p3 : Param) (s : State) :
    exec (.eq p1 p2 p3) s = storeResult (fun a b => .ok (aluEq a b)) p1 p2 p3 s := rfl

theorem exec_jt (p1 p2 : Param) (s : State) : exec (.jt p1 p2) s = jumpWhen (fun c => !isZero c) p1 p2 s := rfl

theorem exec_jf (p1 p2 : Param) (s : State) : exec (.jf p1 p2) s = jumpWhen isZero p1 p2 s := rfl

theorem exec_inp (p : Param) (s : State) :
    exec (.inp p) s = withTarget p s fun ea s => takeInput ea (s.log [.inReq]) := rfl

theorem exec_out (p : Param) (s : State) :
    exec (.out p) s = withValue p s fun v s => giveOutput v (s.log [.outValid v]) := rfl

theorem exec_arb (p : Param) (s : State) :
    exec (.arb p) s = withValue p s fun v s =>
      orRaise (aluArb s.rb v) s fun b => commit { rb := some b, nextPc := s.pc.toNat + 2 } s := rfl

theorem exec_hlt (s : State) : exec .hlt s = commit { nextPc := s.pc.toNat, halts := true } s := rfl

theorem exec_inp_ok {p : Param} {s : State} {ea : Nat} (h : resolveAddress s p = .ok ea) :
    exec (.inp p) s = takeInput ea (s.log [.inReq]) := by
  rw [exec_inp, withTarget_ok h]

theorem exec_inp_error {p : Param} {s : State} {e : StepError} (h : resolveAddress s p = .error e) :
    exec (.inp p) s = .next (s.respond (.error e)) := by
  rw [exec_inp, withTarget_error h]

theorem exec_out_ok {p : Param} {s : State} {v : Cell} (h : resolveValue s p = .ok v) :
    exec (.out p) s = giveOutput v (s.log (resolutionReads s p ++ [.outValid v])) := by
  rw [exec_out, withValue_ok h, State.log_log]

theorem exec_out_error {p : Param} {s : State} {e : StepError} (h : resolveValue s p = .error e) :
    exec (.out p) s = .next (s.respond (.error e)) := by
  rw [exec_out, withValue_error h]

theorem exec_arb_ok {p : Param} {s : State} {v : Cell} (h : resolveValue s p = .ok v) :
    exec (.arb p) s = orRaise (aluArb s.rb v) (s.log (resolutionReads s p)) fun b =>
      commit { rb := some b, nextPc := s.pc.toNat + 2 } (s.log (resolutionReads s p)) := by
  rw [exec_arb, withValue_ok h]
  rfl

theorem exec_arb_error {p : Param} {s : State} {e : StepError} (h : resolveValue s p = .error e) :
    exec (.arb p) s = .next (s.respond (.error e)) := by
  rw [exec_arb, withValue_error h]

/-- Shape F3 (R115, R116): what it can answer, in terms of the state it starts from. -/
theorem storeResult_next {f : Cell → Cell → Except StepError Cell} {p1 p2 p3 : Param} {s t : State}
    (h : storeResult f p1 p2 p3 s = .next t) :
    (∃ es e, ResolvedReads s 2 es ∧ t = (s.log es).respond (.error e) ∧
      ((∃ p, resolveValue s p = .error e) ∨ resolveAddress s p3 = .error e ∨ ∃ a b, f a b = .error e)) ∨
    ∃ a b ea r, resolveValue s p1 = .ok a ∧ resolveValue s p2 = .ok b ∧ resolveAddress s p3 = .ok ea ∧ f a b = .ok r ∧
      s.pc.toNat + 4 < 18446744073709551616 ∧
      t = (s.log (resolutionReads s p1 ++ resolutionReads s p2)).committed
        { write := some (ea, r), nextPc := s.pc.toNat + 4 } := by
  unfold storeResult at h
  rcases withValue_next h with ⟨e, h1, rfl⟩ | ⟨a, h1, h⟩
  · exact .inl ⟨[], e, .nil s 2, by simp, .inl ⟨p1, h1⟩⟩
  have r1 := resolutionReads_of_ok h1
  rcases withValue_next h with ⟨e, h2, rfl⟩ | ⟨b, h2, h⟩
  · exact .inl ⟨_, e, r1.mono (by omega), rfl, .inl ⟨p2, h2⟩⟩
  have r2 : ResolvedReads s 1 (resolutionReads s p2) := resolutionReads_of_ok h2
  simp only [State.log_log, resolutionReads_log] at h
  rcases withTarget_next h with ⟨e, h3, rfl⟩ | ⟨ea, h3, h⟩
  · exact .inl ⟨_, e, r1.append r2, rfl, .inr (.inl h3)⟩
  rcases orRaise_next h with ⟨e, h4, rfl⟩ | ⟨r, h4, h⟩
  · exact .inl ⟨_, e, r1.append r2, rfl, .inr (.inr ⟨a, b, h4⟩)⟩
  obtain ⟨hpc, rfl⟩ := commit_next h
  exact .inr ⟨a, b, ea, r, h1, h2, h3, h4, hpc, rfl⟩

/-- Shape F3 where every check passes. -/
theorem storeResult_ok {f : Cell → Cell → Except StepError Cell} {p1 p2 p3 : Param} {s : State} {a b r : Cell} {ea : Nat}
    (h1 : resolveValue s p1 = .ok a) (h2 : resolveValue s p2 = .ok b) (h3 : resolveAddress s p3 = .ok ea)
    (h4 : f a b = .ok r) (hpc : s.pc.toNat + 4 < 18446744073709551616) :
    storeResult f p1 p2 p3 s =
      .next ((s.log (resolutionReads s p1 ++ resolutionReads s p2)).committed
        { write := some (ea, r), nextPc := s.pc.toNat + 4 }) := by
  have h2' : resolveValue (s.log (resolutionReads s p1)) p2 = .ok b := h2
  have h3' : resolveAddress (s.log (resolutionReads s p1 ++ resolutionReads s p2)) p3 = .ok ea := h3
  unfold storeResult
  simp only [withValue_ok h1, withValue_ok h2', State.log_log, resolutionReads_log, withTarget_ok h3', h4, orRaise_ok]
  rw [commit_of_lt]
  · rfl
  · exact hpc

/-- Shape F3 where the ALU's check fails, every operand being resolved. -/
theorem storeResult_overflow {f : Cell → Cell → Except StepError Cell} {p1 p2 p3 : Param} {s : State} {a b : Cell}
    {ea : Nat} {e : StepError} (h1 : resolveValue s p1 = .ok a) (h2 : resolveValue s p2 = .ok b)
    (h3 : resolveAddress s p3 = .ok ea) (h4 : f a b = .error e) :
    storeResult f p1 p2 p3 s =
      .next ((s.log (resolutionReads s p1 ++ resolutionReads s p2)).respond (.error e)) := by
  have h2' : resolveValue (s.log (resolutionReads s p1)) p2 = .ok b := h2
  have h3' : resolveAddress (s.log (resolutionReads s p1 ++ resolutionReads s p2)) p3 = .ok ea := h3
  unfold storeResult
  simp only [withValue_ok h1, withValue_ok h2', State.log_log, resolutionReads_log, withTarget_ok h3', h4, orRaise_error]

/-- Shape F3 whose first operand does not resolve. -/
theorem storeResult_error1 {f : Cell → Cell → Except StepError Cell} {p1 p2 p3 : Param} {s : State} {e : StepError}
    (h1 : resolveValue s p1 = .error e) : storeResult f p1 p2 p3 s = .next (s.respond (.error e)) := by
  rw [storeResult, withValue_error h1]

/-- Shape F3 whose second operand is the first that does not resolve. -/
theorem storeResult_error2 {f : Cell → Cell → Except StepError Cell} {p1 p2 p3 : Param} {s : State} {a : Cell}
    {e : StepError} (h1 : resolveValue s p1 = .ok a) (h2 : resolveValue s p2 = .error e) :
    storeResult f p1 p2 p3 s = .next ((s.log (resolutionReads s p1)).respond (.error e)) := by
  rw [storeResult, withValue_ok h1, withValue_error (s := s.log _) h2]

/-- Shape F3 whose target is the first operand that does not resolve. -/
theorem storeResult_error3 {f : Cell → Cell → Except StepError Cell} {p1 p2 p3 : Param} {s : State} {a b : Cell}
    {e : StepError} (h1 : resolveValue s p1 = .ok a) (h2 : resolveValue s p2 = .ok b)
    (h3 : resolveAddress s p3 = .error e) :
    storeResult f p1 p2 p3 s =
      .next ((s.log (resolutionReads s p1 ++ resolutionReads s p2)).respond (.error e)) := by
  rw [storeResult, withValue_ok h1, withValue_ok (s := s.log _) h2, withTarget_error (s := (s.log _).log _) h3]
  simp

/-- Shape F2 (R115, R121): what it can answer. -/
theorem jumpWhen_next {cond : Cell → Bool} {p1 p2 : Param} {s t : State} (h : jumpWhen cond p1 p2 s = .next t) :
    (∃ es e, ResolvedReads s 2 es ∧ t = (s.log es).respond (.error e) ∧ ExecError e) ∨
    ∃ c v n, resolveValue s p1 = .ok c ∧ resolveValue s p2 = .ok v ∧ jumpNext (cond c) v p2 s = .ok n ∧
      n < 18446744073709551616 ∧
      t = (s.log (resolutionReads s p1 ++ resolutionReads s p2)).committed { nextPc := n } := by
  unfold jumpWhen at h
  rcases withValue_next h with ⟨e, h1, rfl⟩ | ⟨c, h1, h⟩
  · obtain ⟨a, ha⟩ := resolveValue_error h1
    exact .inl ⟨[], e, .nil s 2, by simp, ha ▸ .address a p1⟩
  have r1 := resolutionReads_of_ok h1
  rcases withValue_next h with ⟨e, h2, rfl⟩ | ⟨v, h2, h⟩
  · obtain ⟨a, ha⟩ := resolveValue_error h2
    exact .inl ⟨_, e, r1.mono (by omega), rfl, ha ▸ .address a p2⟩
  have r2 : ResolvedReads s 1 (resolutionReads s p2) := resolutionReads_of_ok h2
  simp only [State.log_log, resolutionReads_log] at h
  rcases orRaise_next h with ⟨e, h3, rfl⟩ | ⟨n, h3, h⟩
  · refine .inl ⟨_, e, r1.append r2, rfl, ?_⟩
    unfold jumpNext at h3
    split at h3
    · split at h3
      · cases h3
        exact .address _ _
      · cases h3
    · cases h3
  obtain ⟨hpc, rfl⟩ := commit_next h
  exact .inr ⟨c, v, n, h1, h2, h3, hpc, rfl⟩

/-- Shape F2 where every check passes. -/
theorem jumpWhen_ok {cond : Cell → Bool} {p1 p2 : Param} {s : State} {c v : Cell} {n : Nat}
    (h1 : resolveValue s p1 = .ok c) (h2 : resolveValue s p2 = .ok v) (h3 : jumpNext (cond c) v p2 s = .ok n)
    (hn : n < 18446744073709551616) :
    jumpWhen cond p1 p2 s =
      .next ((s.log (resolutionReads s p1 ++ resolutionReads s p2)).committed { nextPc := n }) := by
  have h2' : resolveValue (s.log (resolutionReads s p1)) p2 = .ok v := h2
  have h3' : jumpNext (cond c) v p2 (s.log (resolutionReads s p1 ++ resolutionReads s p2)) = .ok n := h3
  unfold jumpWhen
  simp only [withValue_ok h1, withValue_ok h2', State.log_log, resolutionReads_log, h3', orRaise_ok]
  exact commit_of_lt _ hn

/-- Shape F2 whose first operand does not resolve. -/
theorem jumpWhen_error1 {cond : Cell → Bool} {p1 p2 : Param} {s : State} {e : StepError}
    (h1 : resolveValue s p1 = .error e) : jumpWhen cond p1 p2 s = .next (s.respond (.error e)) := by
  rw [jumpWhen, withValue_error h1]

/-- Shape F2 whose second operand is the first that does not resolve, the jump taken or not (R162). -/
theorem jumpWhen_error2 {cond : Cell → Bool} {p1 p2 : Param} {s : State} {c : Cell} {e : StepError}
    (h1 : resolveValue s p1 = .ok c) (h2 : resolveValue s p2 = .error e) :
    jumpWhen cond p1 p2 s = .next ((s.log (resolutionReads s p1)).respond (.error e)) := by
  rw [jumpWhen, withValue_ok h1, withValue_error (s := s.log _) h2]

/-- Shape F2 where the jump resolver refuses the target (R122). -/
theorem jumpWhen_error3 {cond : Cell → Bool} {p1 p2 : Param} {s : State} {c v : Cell} {e : StepError}
    (h1 : resolveValue s p1 = .ok c) (h2 : resolveValue s p2 = .ok v) (h3 : jumpNext (cond c) v p2 s = .error e) :
    jumpWhen cond p1 p2 s =
      .next ((s.log (resolutionReads s p1 ++ resolutionReads s p2)).respond (.error e)) := by
  have h3' : jumpNext (cond c) v p2 ((s.log (resolutionReads s p1)).log (resolutionReads (s.log (resolutionReads s p1)) p2)) =
    .error e := h3
  rw [jumpWhen, withValue_ok h1, withValue_ok (s := s.log _) h2, h3', orRaise_error]
  simp

/-- Where a jump goes (R121). -/
theorem jumpNext_ok {taken : Bool} {v : Cell} {p2 : Param} {s : State} {n : Nat} (h : jumpNext taken v p2 s = .ok n) :
    (taken = true ∧ 0 ≤ v.val ∧ n = v.val.toNat) ∨ (taken = false ∧ n = s.pc.toNat + 3) := by
  unfold jumpNext at h
  cases taken with
  | true =>
    simp only [if_true] at h
    split at h
    · cases h
    · cases h
      exact .inl ⟨rfl, by omega, rfl⟩
  | false =>
    simp at h
    exact .inr ⟨rfl, h.symm⟩

theorem execError_of_checked {op : OverflowOp} {a b : Cell} {z : Int} {e : StepError}
    (h : checked op a b z = .error e) : ExecError e := by
  obtain ⟨-, rfl⟩ := checked_error.1 h
  exact .overflow op a b

theorem execError_of_value {s : State} {p : Param} {e : StepError} (h : resolveValue s p = .error e) : ExecError e := by
  obtain ⟨a, rfl⟩ := resolveValue_error h
  exact .address a p

theorem execError_of_address {s : State} {p : Param} {e : StepError} (h : resolveAddress s p = .error e) :
    ExecError e := by
  rcases resolveAddress_error h with ⟨a, rfl⟩ | rfl
  · exact .address a p
  · exact .mode

theorem storeResult_result {f : Cell → Cell → Except StepError Cell} {p1 p2 p3 : Param} {s t : State} {i : Instr}
    (hf : ∀ a b e, f a b = .error e → ExecError e) (hi : p3 ∈ i.params) (hlen : i.opcode.length = 4)
    (hio : ∀ p, i ≠ .inp p ∧ i ≠ .out p)
    (h : storeResult f p1 p2 p3 s = .next t) : ExecResult i s t := by
  rcases storeResult_next h with ⟨es, e, hr, rfl, hk⟩ | ⟨a, b, ea, r, h1, h2, h3, -, hpc, rfl⟩
  · refine .raised es e hr ?_
    rcases hk with ⟨p, hk⟩ | hk | ⟨a, b, hk⟩
    · exact execError_of_value hk
    · exact execError_of_address hk
    · exact hf a b e hk
  · refine .done _ _ ((resolutionReads_of_ok h1).append (resolutionReads_of_ok h2)) ?_ hio ?_ ?_ ?_ hpc
    · rintro a v ⟨⟩
      exact ⟨resolveAddress_lt h3, p3, hi, h3⟩
    · rintro b ⟨⟩
    · exact .inl ⟨4, rfl, hlen.ge⟩
    · rintro ⟨⟩

theorem jumpWhen_result {cond : Cell → Bool} {p1 p2 : Param} {s t : State} {i : Instr} (hlen : i.opcode.length = 3)
    (hio : ∀ p, i ≠ .inp p ∧ i ≠ .out p) (h : jumpWhen cond p1 p2 s = .next t) : ExecResult i s t := by
  rcases jumpWhen_next h with ⟨es, e, hr, rfl, he⟩ | ⟨c, v, n, h1, h2, h3, hn, rfl⟩
  · exact .raised es _ hr he
  · refine .done _ _ ((resolutionReads_of_ok h1).append (resolutionReads_of_ok h2)) ?_ hio ?_ ?_ ?_ hn
    · rintro a v ⟨⟩
    · rintro b ⟨⟩
    · rcases jumpNext_ok h3 with ⟨-, -, rfl⟩ | ⟨-, rfl⟩
      · have := v.inRange.2
        exact .inr (by simp only; omega)
      · exact .inl ⟨3, rfl, hlen.ge⟩
    · rintro ⟨⟩

/-- exec inverted: every next state an instruction can answer. -/
theorem exec_next {i : Instr} {s t : State} (h : exec i s = .next t) : ExecResult i s t := by
  cases i with
  | add p1 p2 p3 => exact storeResult_result (fun _ _ _ => execError_of_checked) (by simp [Instr.params]) rfl (by simp) h
  | mul p1 p2 p3 => exact storeResult_result (fun _ _ _ => execError_of_checked) (by simp [Instr.params]) rfl (by simp) h
  | lt p1 p2 p3 =>
    refine storeResult_result (fun _ _ _ he => ?_) (by simp [Instr.params]) rfl (by simp) h
    cases he
  | eq p1 p2 p3 =>
    refine storeResult_result (fun _ _ _ he => ?_) (by simp [Instr.params]) rfl (by simp) h
    cases he
  | jt p1 p2 => exact jumpWhen_result rfl (by simp) h
  | jf p1 p2 => exact jumpWhen_result rfl (by simp) h
  | inp p =>
    rw [exec_inp] at h
    rcases withTarget_next h with ⟨e, h1, rfl⟩ | ⟨ea, h1, h⟩
    · simpa using ExecResult.raised (i := .inp p) (s := s) [] e (.nil s 2) (execError_of_address h1)
    · exact .input p ea rfl h1 t h
  | out p =>
    rw [exec_out] at h
    rcases withValue_next h with ⟨e, h1, rfl⟩ | ⟨v, h1, h⟩
    · simpa using ExecResult.raised (i := .out p) (s := s) [] _ (.nil s 2) (execError_of_value h1)
    · exact .output p v rfl h1 t (by simpa using h)
  | arb p =>
    rw [exec_arb] at h
    rcases withValue_next h with ⟨e, h1, rfl⟩ | ⟨v, h1, h⟩
    · simpa using ExecResult.raised (i := .arb p) (s := s) [] _ (.nil s 2) (execError_of_value h1)
    · have hr := (resolutionReads_of_ok h1).mono (show 1 ≤ 2 by decide)
      rcases orRaise_next h with ⟨e, h2, rfl⟩ | ⟨b, h2, h⟩
      · exact .raised _ e hr (execError_of_checked h2)
      · obtain ⟨hpc, rfl⟩ := commit_next h
        refine .done _ _ hr ?_ (by simp) (fun _ _ => ⟨p, rfl⟩) (.inl ⟨2, rfl, le_refl 2⟩) ?_ hpc
        · rintro a v ⟨⟩
        · rintro ⟨⟩
  | hlt =>
    rw [exec_hlt] at h
    obtain ⟨hpc, rfl⟩ := commit_next h
    have : ExecResult .hlt s ((s.log []).committed { nextPc := s.pc.toNat, halts := true }) := by
      refine .done [] _ (.nil s 2) ?_ (by simp) ?_ (.inl ⟨0, rfl, by decide⟩) (fun _ => ⟨rfl, rfl, rfl, rfl, rfl⟩) hpc
      · rintro a v ⟨⟩
      · rintro b ⟨⟩
    simpa using this

/-- At an instruction in memory exec always answers a next state: no fault and no refusal (R110). -/
theorem exec_answers (i : Instr) {s : State} (h : s.pc.toNat < s.memLen.val) : ∃ t, exec i s = .next t := by
  have hpc : ∀ n, n ≤ 4 → s.pc.toNat + n < 18446744073709551616 := fun n hn => pc_add_fits h hn
  have hstore : ∀ f p1 p2 p3, ∃ t, storeResult f p1 p2 p3 s = .next t := by
    intro f p1 p2 p3
    cases h1 : resolveValue s p1 with
    | error e => exact ⟨_, storeResult_error1 h1⟩
    | ok a =>
      cases h2 : resolveValue s p2 with
      | error e => exact ⟨_, storeResult_error2 h1 h2⟩
      | ok b =>
        cases h3 : resolveAddress s p3 with
        | error e => exact ⟨_, storeResult_error3 h1 h2 h3⟩
        | ok ea =>
          cases h4 : f a b with
          | error e => exact ⟨_, storeResult_overflow h1 h2 h3 h4⟩
          | ok r => exact ⟨_, storeResult_ok h1 h2 h3 h4 (hpc 4 (by decide))⟩
  have hjump : ∀ c p1 p2, ∃ t, jumpWhen c p1 p2 s = .next t := by
    intro c p1 p2
    cases h1 : resolveValue s p1 with
    | error e => exact ⟨_, jumpWhen_error1 h1⟩
    | ok a =>
      cases h2 : resolveValue s p2 with
      | error e => exact ⟨_, jumpWhen_error2 h1 h2⟩
      | ok b =>
        cases h3 : jumpNext (c a) b p2 s with
        | error e => exact ⟨_, jumpWhen_error3 h1 h2 h3⟩
        | ok n =>
          have hn : n < 18446744073709551616 := by
            have := b.inRange.2
            have := hpc 3 (by decide)
            rcases jumpNext_ok h3 with ⟨-, -, rfl⟩ | ⟨-, rfl⟩ <;> omega
          exact ⟨_, jumpWhen_ok h1 h2 h3 hn⟩
  cases i with
  | add p1 p2 p3 => exact hstore _ p1 p2 p3
  | mul p1 p2 p3 => exact hstore _ p1 p2 p3
  | lt p1 p2 p3 => exact hstore _ p1 p2 p3
  | eq p1 p2 p3 => exact hstore _ p1 p2 p3
  | jt p1 p2 => exact hjump _ p1 p2
  | jf p1 p2 => exact hjump _ p1 p2
  | inp p =>
    cases h1 : resolveAddress s p with
    | error e => exact ⟨_, exec_inp_error h1⟩
    | ok ea =>
      rw [exec_inp_ok h1]
      cases ha : s.inAnswers with
      | nil => exact ⟨_, takeInput_wait (s := s.log _) ha⟩
      | cons x rest =>
        cases x with
        | ok v => exact ⟨_, takeInput_ok (s := s.log _) ha (hpc 2 (by decide))⟩
        | fail => exact ⟨_, takeInput_fail (s := s.log _) ha⟩
  | out p =>
    cases h1 : resolveValue s p with
    | error e => exact ⟨_, exec_out_error h1⟩
    | ok v =>
      rw [exec_out_ok h1]
      cases ha : s.outAcks with
      | zero => exact ⟨_, giveOutput_wait (s := s.log _) ha⟩
      | succ n => exact ⟨_, giveOutput_ok (s := s.log _) ha (hpc 2 (by decide))⟩
  | arb p =>
    cases h1 : resolveValue s p with
    | error e => exact ⟨_, exec_arb_error h1⟩
    | ok v =>
      rw [exec_arb_ok h1]
      cases h2 : aluArb s.rb v with
      | error e => exact ⟨_, rfl⟩
      | ok b => exact ⟨_, commit_of_lt _ (hpc 2 (by decide))⟩
  | hlt => exact ⟨_, commit_of_lt _ (hpc 0 (by decide))⟩

end Sys2Proof.Machine
end

