-- ==== Sys2Proof/Laws/Blind.lean ====
section
/-! SUPPORT. What an instruction does not look at: a change of the state that its operands' resolution and its updates do
not see goes through exec unchanged. -/

namespace Sys2Proof.Machine

/-- An outcome with its next state changed by `g`. -/
def mapNext (g : State → State) : Outcome → Outcome
  | .next s => .next (g s)
  | .fault r => .fault r
  | .refused r => .refused r

@[simp] theorem mapNext_next (g : State → State) (s : State) : mapNext g (.next s) = .next (g s) := rfl

/-- A change of the state that goes past every update a step makes and leaves alone what a step's control depends on. -/
structure Blind (g : State → State) : Prop where
  log : ∀ s es, g (s.log es) = (g s).log es
  respond : ∀ s r, g (s.respond r) = (g s).respond r
  wait : ∀ s ph, g (s.wait ph) = (g s).wait ph
  answered : ∀ s rest, g (s.answered rest) = (g s).answered rest
  accepted : ∀ s v n, g (s.accepted v n) = (g s).accepted v n
  committed : ∀ s eff, eff.rb = none → g (s.committed eff) = (g s).committed eff
  pc : ∀ s, (g s).pc = s.pc
  inAnswers : ∀ s, (g s).inAnswers = s.inAnswers
  outAcks : ∀ s, (g s).outAcks = s.outAcks

/-- The change is not seen by the resolution of this operand. -/
def BlindTo (g : State → State) (p : Param) : Prop :=
  ∀ s, resolveValue (g s) p = resolveValue s p ∧ resolveAddress (g s) p = resolveAddress s p ∧
    resolutionReads (g s) p = resolutionReads s p

variable {g : State → State}

theorem orRaise_blind (hg : Blind g) {α : Type} (x : Except StepError α) (s : State) {k k' : α → Outcome}
    (hk : ∀ a, k' a = mapNext g (k a)) : orRaise x (g s) k' = mapNext g (orRaise x s k) := by
  cases x with
  | error e => simp [hg.respond]
  | ok a => exact hk a

theorem withValue_blind (hg : Blind g) {p : Param} (hp : BlindTo g p) (s : State) {k k' : Cell → State → Outcome}
    (hk : ∀ v s, k' v (g s) = mapNext g (k v s)) : withValue p (g s) k' = mapNext g (withValue p s k) := by
  unfold withValue
  rw [(hp s).1, (hp s).2.2]
  refine orRaise_blind hg _ s fun v => ?_
  rw [← hg.log, hk]

theorem withTarget_blind (hg : Blind g) {p : Param} (hp : BlindTo g p) (s : State) {k k' : Nat → State → Outcome}
    (hk : ∀ a s, k' a (g s) = mapNext g (k a s)) : withTarget p (g s) k' = mapNext g (withTarget p s k) := by
  unfold withTarget
  rw [(hp s).2.1]
  exact orRaise_blind hg _ s fun a => hk a s

theorem commit_blind (hg : Blind g) {eff : Effect} (he : eff.rb = none) (s : State) :
    commit eff (g s) = mapNext g (commit eff s) := by
  unfold commit
  split
  · rw [mapNext_next, hg.committed s eff he]
  · rfl

theorem takeInput_blind (hg : Blind g) (ea : Nat) (s : State) : takeInput ea (g s) = mapNext g (takeInput ea s) := by
  unfold takeInput
  rw [hg.inAnswers, hg.pc]
  split
  · rw [mapNext_next, hg.wait]
  · rw [← hg.answered, ← hg.log]
    exact commit_blind hg rfl _
  · rw [← hg.answered, ← hg.log, raise_eq, raise_eq, mapNext_next, hg.respond]

theorem giveOutput_blind (hg : Blind g) (v : Cell) (s : State) : giveOutput v (g s) = mapNext g (giveOutput v s) := by
  unfold giveOutput
  rw [hg.outAcks, hg.pc]
  split
  · rw [mapNext_next, hg.wait]
  · rw [← hg.accepted, ← hg.log]
    exact commit_blind hg rfl _

theorem storeResult_blind (hg : Blind g) (f : Cell → Cell → Except StepError Cell) {p1 p2 p3 : Param}
    (h1 : BlindTo g p1) (h2 : BlindTo g p2) (h3 : BlindTo g p3) (s : State) :
    storeResult f p1 p2 p3 (g s) = mapNext g (storeResult f p1 p2 p3 s) := by
  refine withValue_blind hg h1 s fun a s => withValue_blind hg h2 s fun b s => withTarget_blind hg h3 s fun ea s =>
    orRaise_blind hg _ s fun r => ?_
  rw [hg.pc]
  exact commit_blind hg rfl s

theorem jumpWhen_blind (hg : Blind g) (cond : Cell → Bool) {p1 p2 : Param} (h1 : BlindTo g p1) (h2 : BlindTo g p2)
    (s : State) : jumpWhen cond p1 p2 (g s) = mapNext g (jumpWhen cond p1 p2 s) := by
  refine withValue_blind hg h1 s fun c s => withValue_blind hg h2 s fun t s => ?_
  have : jumpNext (cond c) t p2 (g s) = jumpNext (cond c) t p2 s := by
    unfold jumpNext
    rw [hg.pc]
  rw [this]
  exact orRaise_blind hg _ s fun n => commit_blind hg rfl s

/-- exec does the same whether or not the change is made first: for ARB where the change keeps RB. -/
theorem exec_blind (hg : Blind g) {i : Instr} (hp : ∀ p ∈ i.params, BlindTo g p)
    (harb : ∀ p, i = .arb p → ∀ s eff, (g s).rb = s.rb ∧ g (s.committed eff) = (g s).committed eff) (s : State) :
    exec i (g s) = mapNext g (exec i s) := by
  cases i with
  | add p1 p2 p3 => exact storeResult_blind hg _ (hp p1 (by simp [Instr.params])) (hp p2 (by simp [Instr.params])) (hp p3 (by simp [Instr.params])) s
  | mul p1 p2 p3 => exact storeResult_blind hg _ (hp p1 (by simp [Instr.params])) (hp p2 (by simp [Instr.params])) (hp p3 (by simp [Instr.params])) s
  | lt p1 p2 p3 => exact storeResult_blind hg _ (hp p1 (by simp [Instr.params])) (hp p2 (by simp [Instr.params])) (hp p3 (by simp [Instr.params])) s
  | eq p1 p2 p3 => exact storeResult_blind hg _ (hp p1 (by simp [Instr.params])) (hp p2 (by simp [Instr.params])) (hp p3 (by simp [Instr.params])) s
  | jt p1 p2 => exact jumpWhen_blind hg _ (hp p1 (by simp [Instr.params])) (hp p2 (by simp [Instr.params])) s
  | jf p1 p2 => exact jumpWhen_blind hg _ (hp p1 (by simp [Instr.params])) (hp p2 (by simp [Instr.params])) s
  | inp p =>
    rw [exec_inp, exec_inp]
    refine withTarget_blind hg (hp p (by simp [Instr.params])) s fun ea s => ?_
    rw [← hg.log]
    exact takeInput_blind hg ea _
  | out p =>
    rw [exec_out, exec_out]
    refine withValue_blind hg (hp p (by simp [Instr.params])) s fun v s => ?_
    rw [← hg.log]
    exact giveOutput_blind hg v _
  | arb p =>
    rw [exec_arb, exec_arb]
    refine withValue_blind hg (hp p (by simp [Instr.params])) s fun v s => ?_
    rw [(harb p rfl s { nextPc := 0 }).1, hg.pc]
    refine orRaise_blind hg _ s fun b => ?_
    unfold commit
    split
    · rw [mapNext_next, (harb p rfl s _).2]
    · rfl
  | hlt =>
    rw [exec_hlt, exec_hlt, hg.pc]
    exact commit_blind hg rfl s

end Sys2Proof.Machine
end

