-- ==== Sys2Proof/Laws/Decode.lean ====
section
/-! SUPPORT. The decoder and the encoder: what decodeWord answers, and the digits of a canonical word. -/

namespace Sys2Proof

theorem opcodeOf_num (op : Opcode) : opcodeOf op.num = some op := by
  cases op <;> rfl

/-- The opcode map is one to one (R90). -/
theorem opcodeOf_eq_some {n : Nat} {op : Opcode} : opcodeOf n = some op ↔ n = op.num := by
  constructor
  · intro h
    unfold opcodeOf at h
    split at h <;> first | (cases h; rfl) | cases h
  · rintro rfl
    exact opcodeOf_num op

/-- The numbers that select no instruction (R91). -/
theorem opcodeOf_eq_none {n : Nat} (hn : n < 100) : opcodeOf n = none ↔ n = 0 ∨ (10 ≤ n ∧ n ≤ 98) := by
  revert n
  decide

theorem decodeMode_of_gt (kind : Option OperandKind) {d : Nat} (h : 2 < d) :
    decodeMode kind d = .error (.invalidAddressingMode d) := by
  obtain ⟨n, rfl⟩ : ∃ n, d = n + 3 := ⟨d - 3, by omega⟩
  rfl

theorem decodeMode_write_one : decodeMode (some .write) 1 = .error (.invalidAddressingMode 1) := rfl

/-- A mode's own digit decodes to it, unless it is Immediate on an `out` operand (R86, R88). -/
theorem decodeMode_digit {kind : Option OperandKind} {m : Mode} (h : kind = some .write → m ≠ .immediate) :
    decodeMode kind m.digit = .ok m := by
  cases m with
  | position => rfl
  | relative => rfl
  | immediate =>
    have : kind ≠ some .write := fun hk => h hk rfl
    simp [Mode.digit, decodeMode, this]

/-- A digit that decodes is the digit of the mode it gives, and is legal on the operand (R86 to R88). -/
theorem decodeMode_ok {kind : Option OperandKind} {d : Nat} {m : Mode} (h : decodeMode kind d = .ok m) :
    d = m.digit ∧ (kind = some .write → m ≠ .immediate) := by
  unfold decodeMode at h
  split at h
  · cases h
    exact ⟨rfl, by simp⟩
  · split at h
    · cases h
    · cases h
      exact ⟨rfl, fun hk => absurd hk (by assumption)⟩
  · cases h
    exact ⟨rfl, by simp⟩
  · cases h

/-- Every digit up to 2 decodes where it does not name an Immediate `out` operand. -/
theorem decodeMode_ok_of_le {kind : Option OperandKind} {d : Nat} (hd : d ≤ 2) (h : ¬(kind = some .write ∧ d = 1)) :
    ∃ m, decodeMode kind d = .ok m := by
  rcases (by omega : d = 0 ∨ d = 1 ∨ d = 2) with rfl | rfl | rfl
  · exact ⟨_, rfl⟩
  · have : kind ≠ some .write := fun hk => h ⟨hk, rfl⟩
    exact ⟨.immediate, by simp [decodeMode, this]⟩
  · exact ⟨_, rfl⟩

/-- The accepting verdict, in full (R84 to R92). -/
theorem decodeWord_ok {w : Cell} {d : Decoded} :
    decodeWord w = .ok d ↔
      0 ≤ w.val ∧ opcodeOf (w.val.toNat % 100) = some d.op ∧
      decodeMode d.op.kinds[0]? (digit w.val.toNat 2) = .ok d.m1 ∧
      decodeMode d.op.kinds[1]? (digit w.val.toNat 3) = .ok d.m2 ∧
      decodeMode d.op.kinds[2]? (digit w.val.toNat 4) = .ok d.m3 := by
  obtain ⟨op, m1, m2, m3⟩ := d
  constructor
  · intro h
    unfold decodeWord at h
    split at h
    · cases h
    · split at h
      · cases h
      · split at h
        · cases h
        · split at h
          · cases h
          · split at h
            · cases h
            · cases h
              exact ⟨by omega, by assumption, by assumption, by assumption, by assumption⟩
  · rintro ⟨h0, h1, h2, h3, h4⟩
    have : ¬ w.val < 0 := by omega
    simp only at h1 h2 h3 h4
    simp [decodeWord, this, h1, h2, h3, h4]

/-- The refusal of a word without an opcode (R84, R91). -/
theorem decodeWord_invalidOpcode {w : Cell} (h : w.val < 0 ∨ opcodeOf (w.val.toNat % 100) = none) :
    decodeWord w = .error (.invalidOpcode w) := by
  unfold decodeWord
  split
  · rfl
  · rcases h with h | h
    · contradiction
    · simp [h]

/-- The refusal of a bad mode digit: the first one in the order 1, 2, 3 (R87, R88, R92). -/
theorem decodeWord_badMode {w : Cell} {op : Opcode} {e : WordError} (h0 : 0 ≤ w.val)
    (hop : opcodeOf (w.val.toNat % 100) = some op)
    (h : decodeMode op.kinds[0]? (digit w.val.toNat 2) = .error e ∨
      (∃ m, decodeMode op.kinds[0]? (digit w.val.toNat 2) = .ok m) ∧
        (decodeMode op.kinds[1]? (digit w.val.toNat 3) = .error e ∨
          (∃ m, decodeMode op.kinds[1]? (digit w.val.toNat 3) = .ok m) ∧
            decodeMode op.kinds[2]? (digit w.val.toNat 4) = .error e)) :
    decodeWord w = .error e := by
  have hneg : ¬ w.val < 0 := by omega
  rcases h with h | ⟨⟨m, h1⟩, h | ⟨⟨m', h2⟩, h⟩⟩
  · simp [decodeWord, hneg, hop, h]
  · simp [decodeWord, hneg, hop, h1, h]
  · simp [decodeWord, hneg, hop, h1, h2, h]

theorem canonicalWord_toNat (op : Opcode) (m1 m2 m3 : Mode) :
    (canonicalWord op m1 m2 m3).val.toNat = op.num + 100 * m1.digit + 1000 * m2.digit + 10000 * m3.digit := rfl

theorem canonicalWord_nonneg (op : Opcode) (m1 m2 m3 : Mode) : 0 ≤ (canonicalWord op m1 m2 m3).val :=
  Int.natCast_nonneg _

/-- The fields of a number laid out as R82 says. -/
theorem digits_of_layout {op a b c h w : Nat} (hw : w = h * 100000 + c * 10000 + b * 1000 + a * 100 + op)
    (hop : op ≤ 99) (ha : a ≤ 9) (hb : b ≤ 9) (hc : c ≤ 9) :
    w % 100 = op ∧ digit w 2 = a ∧ digit w 3 = b ∧ digit w 4 = c := by
  unfold digit
  simp only [show (10 : Nat) ^ 2 = 100 from rfl, show (10 : Nat) ^ 3 = 1000 from rfl, show (10 : Nat) ^ 4 = 10000 from rfl]
  omega

/-- The opcode and the mode digits of a canonical word (R82, R96). -/
theorem canonicalWord_fields (op : Opcode) (m1 m2 m3 : Mode) :
    (canonicalWord op m1 m2 m3).val.toNat % 100 = op.num ∧
    digit (canonicalWord op m1 m2 m3).val.toNat 2 = m1.digit ∧
    digit (canonicalWord op m1 m2 m3).val.toNat 3 = m2.digit ∧
    digit (canonicalWord op m1 m2 m3).val.toNat 4 = m3.digit := by
  have h1 := m1.digit_le
  have h2 := m2.digit_le
  have h3 := m3.digit_le
  refine digits_of_layout (h := 0) ?_ op.num_le (by omega) (by omega) (by omega)
  rw [canonicalWord_toNat]
  omega

/-- decode on a list whose first cell is accepted and which is long enough (R81, R94). -/
theorem decode_cons_ok {w : Cell} {d : Decoded} {rest : List Cell} (h : decodeWord w = .ok d)
    (hlen : d.op.arity ≤ rest.length) :
    decode (w :: rest) =
      .ok (d.assemble fun k => rest.getD (k - 1) Config.unlistedCell, rest.drop d.op.arity) := by
  simp [decode, h, Nat.not_lt.2 hlen]

end Sys2Proof
end

