-- ==== Sys2Proof/Laws/Memory.lean ====
section
/-! SUPPORT. Memory: a read after a write, and the canonical form. The read laws hold of every list; only the canonical
form needs a canonical list. -/

namespace Sys2Proof.Machine.Memory

theorem get_erase_self (m : Memory) (a : Nat) : get (erase m a) a = Config.unlistedCell := by
  induction m with
  | nil => rfl
  | cons e m ih =>
    obtain ⟨k, v⟩ := e
    by_cases h : k = a <;> simp [erase, get, h, ih]

theorem get_erase_of_ne (m : Memory) {a b : Nat} (hab : b ≠ a) : get (erase m a) b = get m b := by
  induction m with
  | nil => rfl
  | cons e m ih =>
    obtain ⟨k, v⟩ := e
    by_cases h : k = a
    · subst h
      simp [erase, get, ih, hab.symm]
    · simp [erase, get, h, ih]

theorem erase_erase (m : Memory) (a : Nat) : erase (erase m a) a = erase m a := by
  induction m with
  | nil => rfl
  | cons e m ih =>
    obtain ⟨k, v⟩ := e
    by_cases h : k = a <;> simp [erase, h, ih]

theorem get_insert_of_ne (m : Memory) {a b : Nat} (v : Cell) (hab : b ≠ a) : get (insert m a v) b = get m b := by
  induction m with
  | nil => simp [insert, get, hab.symm]
  | cons e m ih =>
    obtain ⟨k, w⟩ := e
    by_cases h : a < k
    · simp [insert, get, h, hab.symm]
    · simp [insert, get, h, ih]

theorem get_insert_self (m : Memory) (a : Nat) (v : Cell) (hm : erase m a = m) : get (insert m a v) a = v := by
  induction m with
  | nil => simp [insert, get]
  | cons e m ih =>
    obtain ⟨k, w⟩ := e
    by_cases h : a < k
    · simp [insert, get, h]
    · have hka : k ≠ a := by
        rintro rfl
        have hlen : (erase m k).length ≤ m.length := by
          clear ih hm h
          induction m with
          | nil => simp [erase]
          | cons e m ih =>
            obtain ⟨j, x⟩ := e
            by_cases hj : j = k <;> simp [erase, hj] <;> omega
        have : (erase ((k, w) :: m) k).length = ((k, w) :: m).length := by rw [hm]
        simp [erase] at this
        omega
      simp only [erase, hka, if_false, List.cons.injEq, true_and] at hm
      simp [insert, get, h, hka, ih hm]

/-- A write is read back, and no other cell changes (R40, R53). -/
theorem get_put (m : Memory) (a b : Nat) (v : Cell) : get (put m a v) b = if b = a then v else get m b := by
  unfold put
  by_cases hv : v = Config.unlistedCell
  · by_cases hb : b = a
    · subst hb
      simp [hv, get_erase_self]
    · simp [hv, hb, get_erase_of_ne m hb]
  · by_cases hb : b = a
    · subst hb
      simp [hv, get_insert_self _ _ _ (erase_erase m b)]
    · simp [hv, hb, get_insert_of_ne _ _ hb, get_erase_of_ne m hb]

@[simp] theorem get_put_self (m : Memory) (a : Nat) (v : Cell) : get (put m a v) a = v := by
  simp [get_put]

theorem get_put_of_ne (m : Memory) {a b : Nat} (v : Cell) (h : b ≠ a) : get (put m a v) b = get m b := by
  simp [get_put, h]

theorem mem_erase {m : Memory} {a : Nat} {e : Nat × Cell} (h : e ∈ erase m a) : e ∈ m := by
  induction m with
  | nil => simp [erase] at h
  | cons x m ih =>
    obtain ⟨k, v⟩ := x
    by_cases hk : k = a
    · simp only [erase, hk, if_true] at h
      exact List.mem_cons_of_mem _ (ih h)
    · simp only [erase, hk, if_false, List.mem_cons] at h
      rcases h with h | h
      · simp [h]
      · exact List.mem_cons_of_mem _ (ih h)

theorem fst_ne_of_mem_erase {m : Memory} {a : Nat} {e : Nat × Cell} (h : e ∈ erase m a) : e.1 ≠ a := by
  induction m with
  | nil => simp [erase] at h
  | cons x m ih =>
    obtain ⟨k, v⟩ := x
    by_cases hk : k = a
    · simp only [erase, hk, if_true] at h
      exact ih h
    · simp only [erase, hk, if_false, List.mem_cons] at h
      rcases h with h | h
      · simpa [h] using hk
      · exact ih h

theorem mem_insert {m : Memory} {a : Nat} {v : Cell} {e : Nat × Cell} (h : e ∈ insert m a v) :
    e = (a, v) ∨ e ∈ m := by
  induction m with
  | nil => simpa [insert] using h
  | cons x m ih =>
    obtain ⟨k, w⟩ := x
    by_cases hk : a < k
    · simpa [insert, hk] using h
    · simp only [insert, hk, if_false, List.mem_cons] at h ⊢
      rcases h with h | h
      · exact .inr (.inl h)
      · rcases ih h with h | h
        · exact .inl h
        · exact .inr (.inr h)

/-- A write adds at most its own address to the list. -/
theorem mem_put {m : Memory} {a : Nat} {v : Cell} {e : Nat × Cell} (h : e ∈ put m a v) : e.1 = a ∨ e ∈ m := by
  unfold put at h
  split at h
  · exact .inr (mem_erase h)
  · rcases mem_insert h with h | h
    · simp [h]
    · exact .inr (mem_erase h)

theorem above_iff {a : Nat} {m : Memory} : above a m = true ↔ ∀ e ∈ m, a < e.1 := by
  simp [above]

theorem wf_cons {k : Nat} {v : Cell} {m : Memory} :
    wf ((k, v) :: m) = true ↔ v ≠ Config.unlistedCell ∧ (∀ e ∈ m, k < e.1) ∧ wf m = true := by
  simp [wf, above_iff, and_assoc]

theorem wf_erase {m : Memory} (a : Nat) (h : wf m = true) : wf (erase m a) = true := by
  induction m with
  | nil => rfl
  | cons e m ih =>
    obtain ⟨k, v⟩ := e
    obtain ⟨hv, hk, hm⟩ := wf_cons.1 h
    by_cases hka : k = a
    · simpa [erase, hka] using ih hm
    · simp only [erase, hka, if_false]
      exact wf_cons.2 ⟨hv, fun e he => hk e (mem_erase he), ih hm⟩

theorem wf_insert {m : Memory} {a : Nat} {v : Cell} (hv : v ≠ Config.unlistedCell) (hm : wf m = true)
    (ha : ∀ e ∈ m, e.1 ≠ a) : wf (insert m a v) = true := by
  induction m with
  | nil => exact wf_cons.2 ⟨hv, by simp, rfl⟩
  | cons e m ih =>
    obtain ⟨k, w⟩ := e
    obtain ⟨hw, hk, hm'⟩ := wf_cons.1 hm
    by_cases hak : a < k
    · simp only [insert, hak, if_true]
      refine wf_cons.2 ⟨hv, fun e he => ?_, hm⟩
      rcases List.mem_cons.1 he with rfl | he
      · exact hak
      · exact lt_trans hak (hk e he)
    · simp only [insert, hak, if_false]
      refine wf_cons.2 ⟨hw, fun e he => ?_, ih hm' fun e he => ha e (List.mem_cons_of_mem _ he)⟩
      have hne : k ≠ a := ha (k, w) (by simp)
      rcases mem_insert he with rfl | he
      · simp only
        omega
      · exact hk e he

/-- A write keeps the canonical form. -/
theorem wf_put {m : Memory} (a : Nat) (v : Cell) (h : wf m = true) : wf (put m a v) = true := by
  unfold put
  split
  · exact wf_erase a h
  · exact wf_insert (by assumption) (wf_erase a h) fun _ he => fst_ne_of_mem_erase he

/-- A cell below every listed address reads as an unlisted one. -/
theorem get_of_above {m : Memory} {a : Nat} (h : ∀ e ∈ m, e.1 ≠ a) : get m a = Config.unlistedCell := by
  induction m with
  | nil => rfl
  | cons e m ih =>
    obtain ⟨k, v⟩ := e
    have hk : k ≠ a := h (k, v) (by simp)
    simp [get, hk, ih fun e he => h e (List.mem_cons_of_mem _ he)]

theorem get_place (m : Memory) (a : Nat) (cs : List Cell) (b : Nat) :
    get (place m a cs) b = if a ≤ b then (cs[b - a]?).getD (get m b) else get m b := by
  induction cs generalizing m a with
  | nil => simp [place]
  | cons c cs ih =>
    rw [place, ih]
    rcases Nat.lt_trichotomy b a with h | h | h
    · have h1 : ¬ a + 1 ≤ b := by omega
      have h2 : ¬ a ≤ b := by omega
      rw [if_neg h1, if_neg h2, get_put_of_ne _ _ (by omega)]
    · subst h
      simp
    · obtain ⟨n, rfl⟩ : ∃ n, b = a + 1 + n := ⟨b - (a + 1), by omega⟩
      have h1 : a + 1 ≤ a + 1 + n := by omega
      have h2 : a ≤ a + 1 + n := by omega
      have h3 : a + 1 + n - (a + 1) = n := by omega
      have h4 : a + 1 + n - a = n + 1 := by omega
      rw [if_pos h1, if_pos h2, h3, h4, get_put_of_ne _ _ (by omega), List.getElem?_cons_succ]

theorem wf_place {m : Memory} (a : Nat) (cs : List Cell) (h : wf m = true) : wf (place m a cs) = true := by
  induction cs generalizing m a with
  | nil => exact h
  | cons c cs ih => exact ih (a + 1) (wf_put a c h)

/-- Placing cells lists at most their own addresses anew. -/
theorem mem_place {m : Memory} {a : Nat} {cs : List Cell} {e : Nat × Cell} (h : e ∈ place m a cs) :
    e.1 < a + cs.length ∨ e ∈ m := by
  induction cs generalizing m a with
  | nil => exact .inr h
  | cons c cs ih =>
    rcases ih h with h | h
    · left
      simp only [List.length_cons]
      omega
    · rcases mem_put h with h | h
      · left
        simp only [List.length_cons]
        omega
      · exact .inr h

end Sys2Proof.Machine.Memory
end

