-- ==== Sys2Proof/Laws/PerInstr.lean ====
section
/-! SUPPORT. The shape of every instruction's canonical encoding (R80, R81, R82, R96), one lemma per constructor. -/

namespace Sys2Proof.Laws

/-- The instruction has as many operand cells as its opcode says; its encoding is a word below 10^5 and then its operand
cells as they are; and the word's decimal fields are the opcode and the modes, with digit 0 for the operands it lacks. -/
def EncodedShape.Statement (i : Instr) : Prop :=
  i.params.length = i.opcode.arity ∧
    ∃ w : Cell, encode i = w :: i.params.map Param.v ∧ 0 ≤ w.val ∧ w.val < 100000 ∧
      w.val.toNat % 100 = i.opcode.num ∧ digit w.val.toNat 2 = (i.mode 1).digit ∧
      digit w.val.toNat 3 = (i.mode 2).digit ∧ digit w.val.toNat 4 = (i.mode 3).digit

/-- What the lemmas below share: all of it but the number of operands holds of any instruction. -/
theorem EncodedShape.of_arity {i : Instr} (h : i.params.length = i.opcode.arity) : EncodedShape.Statement i := by
  have hf := canonicalWord_fields i.opcode (i.mode 1) (i.mode 2) (i.mode 3)
  have ht := canonicalWord_toNat i.opcode (i.mode 1) (i.mode 2) (i.mode 3)
  have h0 := canonicalWord_nonneg i.opcode (i.mode 1) (i.mode 2) (i.mode 3)
  have := i.opcode.num_le
  have := (i.mode 1).digit_le
  have := (i.mode 2).digit_le
  have := (i.mode 3).digit_le
  exact ⟨h, _, rfl, h0, by omega, hf⟩

theorem EncodedShape.add (p1 p2 p3 : Param) : EncodedShape.Statement (.add p1 p2 p3) := of_arity rfl

theorem EncodedShape.mul (p1 p2 p3 : Param) : EncodedShape.Statement (.mul p1 p2 p3) := of_arity rfl

theorem EncodedShape.inp (p1 : Param) : EncodedShape.Statement (.inp p1) := of_arity rfl

theorem EncodedShape.out (p1 : Param) : EncodedShape.Statement (.out p1) := of_arity rfl

theorem EncodedShape.jt (p1 p2 : Param) : EncodedShape.Statement (.jt p1 p2) := of_arity rfl

theorem EncodedShape.jf (p1 p2 : Param) : EncodedShape.Statement (.jf p1 p2) := of_arity rfl

theorem EncodedShape.lt (p1 p2 p3 : Param) : EncodedShape.Statement (.lt p1 p2 p3) := of_arity rfl

theorem EncodedShape.eq (p1 p2 p3 : Param) : EncodedShape.Statement (.eq p1 p2 p3) := of_arity rfl

theorem EncodedShape.arb (p1 : Param) : EncodedShape.Statement (.arb p1) := of_arity rfl

theorem EncodedShape.hlt : EncodedShape.Statement .hlt := of_arity rfl

end Sys2Proof.Laws
end

