-- ==== Sys2Proof/Laws/Step.lean ====
section
/-! SUPPORT. Fetching and the whole step: what they can answer, said once. -/

namespace Sys2Proof.Machine

@[simp] theorem cellAtPc_log (s : State) (es : List PortEvent) : (s.log es).cellAtPc = s.cellAtPc := rfl

@[simp] theorem cellAtPc_begin (s : State) : s.begin.cellAtPc = s.cellAtPc := rfl

theorem fetchReads_log (s : State) (es : List PortEvent) (n k : Nat) :
    fetchReads (s.log es) n k = fetchReads s n k := by
  induction n generalizing k with
  | zero => rfl
  | succ n ih => simp [fetchReads, ih]

theorem fetchReads_begin (s : State) (n k : Nat) : fetchReads s.begin n k = fetchReads s n k := by
  induction n generalizing k with
  | zero => rfl
  | succ n ih => simp [fetchReads, ih]

theorem fetchReads_length (s : State) (n k : Nat) : (fetchReads s n k).length = n := by
  induction n generalizing k with
  | zero => rfl
  | succ n ih => simp [fetchReads, ih]

/-- Fetched cells lie in memory (R55). -/
theorem fetchReads_resolved {s : State} {n k : Nat} (h : n = 0 ∨ s.pc.toNat + k + n ≤ s.memLen.val) :
    ResolvedReads s n (fetchReads s n k) := by
  refine ⟨(fetchReads_length s n k).le, ?_⟩
  induction n generalizing k with
  | zero => simp [fetchReads]
  | succ n ih =>
    intro e he
    rcases List.mem_cons.1 he with rfl | he
    · exact ⟨s.pc.toNat + k, by omega, rfl⟩
    · exact ih (by omega) e he

theorem fetchCell_ok {s : State} {k : Nat} (h : s.pc.toNat + k < s.memLen.val) :
    fetchCell k s = (.ok (), s.log [.memRead (s.pc.toNat + k) (s.cellAtPc k)]) := by
  simp [fetchCell, h]

theorem fetchCell_error {s : State} {k : Nat} (h : s.memLen.val ≤ s.pc.toNat + k) :
    fetchCell k s = (.error (.invalidAddress ((s.pc.toNat + k : Nat) : Int) none), s) := by
  simp [fetchCell, Nat.not_lt.2 h]

/-- Cells that lie in memory are all fetched (R114). -/
theorem fetchCells_ok {s : State} {n k : Nat} (h : n = 0 ∨ s.pc.toNat + k + n ≤ s.memLen.val) :
    fetchCells n k s = (.ok (), s.log (fetchReads s n k)) := by
  induction n generalizing k s with
  | zero => simp [fetchCells, fetchReads]
  | succ n ih =>
    have h1 : s.pc.toNat + k < s.memLen.val := by omega
    have h2 : n = 0 ∨ (s.log [.memRead (s.pc.toNat + k) (s.cellAtPc k)]).pc.toNat + (k + 1) + n ≤
        (s.log [.memRead (s.pc.toNat + k) (s.cellAtPc k)]).memLen.val := by
      simp only [State.log_pc, State.log_memLen]
      omega
    simp [fetchCells, fetchCell_ok h1, ih h2, fetchReads, fetchReads_log]

/-- The first cell past the end of memory ends the fetch (R114). -/
theorem fetchCells_error {s : State} {n k m : Nat} (hm : m < n) (hin : m = 0 ∨ s.pc.toNat + k + m ≤ s.memLen.val)
    (hout : s.memLen.val ≤ s.pc.toNat + k + m) :
    fetchCells n k s =
      (.error (.invalidAddress ((s.pc.toNat + k + m : Nat) : Int) none), s.log (fetchReads s m k)) := by
  induction m generalizing k s n with
  | zero =>
    obtain ⟨n, rfl⟩ : ∃ j, n = j + 1 := ⟨n - 1, by omega⟩
    simp [fetchCells, fetchCell_error (by simpa using hout), fetchReads]
  | succ m ih =>
    obtain ⟨n, rfl⟩ : ∃ j, n = j + 1 := ⟨n - 1, by omega⟩
    have h1 : s.pc.toNat + k < s.memLen.val := by omega
    have := ih (n := n) (k := k + 1) (s := s.log [.memRead (s.pc.toNat + k) (s.cellAtPc k)]) (by omega)
      (by simp only [State.log_pc, State.log_memLen]; omega) (by simp only [State.log_pc, State.log_memLen]; omega)
    simp only [fetchCells, fetchCell_ok h1, this, State.log_pc, fetchReads, fetchReads_log, State.log_log,
      List.singleton_append]
    have : s.pc.toNat + (k + 1) + m = s.pc.toNat + k + (m + 1) := by omega
    rw [this]

/-- What fetching cells can answer. -/
theorem fetchCells_cases (n k : Nat) (s : State) :
    ∃ m, m ≤ n ∧ (m = 0 ∨ s.pc.toNat + k + m ≤ s.memLen.val) ∧
      ((m = n ∧ fetchCells n k s = (.ok (), s.log (fetchReads s n k))) ∨
        ∃ a, fetchCells n k s = (.error (.invalidAddress a none), s.log (fetchReads s m k))) := by
  by_cases h : n = 0 ∨ s.pc.toNat + k + n ≤ s.memLen.val
  · exact ⟨n, le_refl n, h, .inl ⟨rfl, fetchCells_ok h⟩⟩
  · refine ⟨s.memLen.val - (s.pc.toNat + k), by omega, by omega, .inr ⟨_, fetchCells_error ?_ ?_ ?_⟩⟩ <;> omega

/-- The whole fetch of an instruction in memory (R111, R112, R114). -/
theorem fetchInstr_ok {s : State} {d : Decoded} (hd : decodeWord (s.cellAtPc 0) = .ok d)
    (h : s.pc.toNat + d.op.length ≤ s.memLen.val) :
    fetchInstr s = (.ok (d.assemble s.cellAtPc), s.log (fetchReads s d.op.length 0)) := by
  unfold Opcode.length at h ⊢
  have h0 : s.pc.toNat + 0 < s.memLen.val := by omega
  have h1 : d.op.arity = 0 ∨ (s.log [.memRead (s.pc.toNat + 0) (s.cellAtPc 0)]).pc.toNat + 1 + d.op.arity ≤
      (s.log [.memRead (s.pc.toNat + 0) (s.cellAtPc 0)]).memLen.val := by
    simp only [State.log_pc, State.log_memLen]
    omega
  have h2 := fetchCells_ok h1
  rw [Nat.add_comm 1 d.op.arity]
  simp only [fetchInstr, fetchCell_ok h0, hd, h2, fetchReads, fetchReads_log, State.log_log,
    List.singleton_append]

/-- The errors of phases F, D and O (R111, R112, R114). -/
inductive FetchError (s : State) : StepError → Prop where
  | past (a : Int) : FetchError s (.invalidAddress a none)
  | word (e : WordError) (h : decodeWord (s.cellAtPc 0) = .error e) : FetchError s (decodeFailure s.pc e)

theorem FetchError.ne_inputUnavailable {s : State} {e : StepError} (h : FetchError s e) : e ≠ .inputUnavailable := by
  rcases h with ⟨a⟩ | ⟨e, h⟩
  · intro h
    cases h
  · cases e <;> intro h <;> cases h

/-- What a fetch can answer: reads of cells of memory, and either an instruction that lies in memory whole or an error. -/
theorem fetchInstr_cases (s : State) :
    (∃ d, decodeWord (s.cellAtPc 0) = .ok d ∧ s.pc.toNat + d.op.length ≤ s.memLen.val ∧
      fetchInstr s = (.ok (d.assemble s.cellAtPc), s.log (fetchReads s d.op.length 0))) ∨
    ∃ es e, ResolvedReads s 4 es ∧ FetchError s e ∧ fetchInstr s = (.error e, s.log es) := by
  by_cases h0 : s.pc.toNat + 0 < s.memLen.val
  · have hr : ResolvedReads s 1 [.memRead (s.pc.toNat + 0) (s.cellAtPc 0)] :=
      ⟨by simp, fun e he => ⟨s.pc.toNat + 0, h0, List.mem_singleton.1 he⟩⟩
    cases hd : decodeWord (s.cellAtPc 0) with
    | error e =>
      refine .inr ⟨_, decodeFailure s.pc e, hr.mono (by decide), .word e hd, ?_⟩
      simp only [fetchInstr, fetchCell_ok h0, hd]
    | ok d =>
      by_cases hlen : s.pc.toNat + d.op.length ≤ s.memLen.val
      · exact .inl ⟨d, rfl, hlen, fetchInstr_ok hd hlen⟩
      · have harity : d.op.arity ≤ 3 := by cases d.op <;> decide
        obtain ⟨m, hm, hin, ⟨rfl, h⟩ | ⟨a, h⟩⟩ :=
          fetchCells_cases d.op.arity 1 (s.log [.memRead (s.pc.toNat + 0) (s.cellAtPc 0)])
        · unfold Opcode.length at hlen
          simp only [State.log_pc, State.log_memLen] at hin
          omega
        · refine .inr ⟨_, .invalidAddress a none, (hr.append (fetchReads_resolved (s := s) hin)).mono (by omega),
            .past a, ?_⟩
          simp only [fetchInstr, fetchCell_ok h0, hd, h, State.log_log, fetchReads_log]
  · refine .inr ⟨[], .invalidAddress ((s.pc.toNat + 0 : Nat) : Int) none, .nil s 4, .past _, ?_⟩
    simp only [fetchInstr, fetchCell_error (Nat.not_lt.1 h0), State.log_nil]

theorem length_le_four (op : Opcode) : op.length ≤ 4 := by
  cases op <;> decide

/-- The assembled instruction has the decoded opcode (R94). -/
theorem opcode_assemble (d : Decoded) (c : Nat → Cell) : (d.assemble c).opcode = d.op := by
  unfold Decoded.assemble
  cases d.op <;> rfl

@[simp] theorem step_idle {s : State} (h : s.phase = .idle) : step s = startStep s := by
  simp [step, h]

@[simp] theorem step_awaitIn {s : State} {ea : Nat} (h : s.phase = .awaitIn ea) : step s = takeInput ea s := by
  simp [step, h]

@[simp] theorem step_awaitOut {s : State} {v : Cell} (h : s.phase = .awaitOut v) : step s = giveOutput v s := by
  simp [step, h]

/-- A new step inverted: it ends in the fetch with an error, or it runs an instruction that lies in memory (R124). -/
theorem startStep_next {s t : State} (h : startStep s = .next t) :
    (∃ es e, ResolvedReads s 4 es ∧ FetchError s e ∧ t = (s.begin.log es).respond (.error e)) ∨
    ∃ d, decodeWord (s.cellAtPc 0) = .ok d ∧ s.pc.toNat + d.op.length ≤ s.memLen.val ∧
      exec (d.assemble s.cellAtPc) (s.begin.log (fetchReads s d.op.length 0)) = .next t ∧
      ExecResult (d.assemble s.cellAtPc) (s.begin.log (fetchReads s d.op.length 0)) t := by
  rcases fetchInstr_cases s.begin with ⟨d, hd, hlen, hf⟩ | ⟨es, e, hr, he, hf⟩
  · rw [fetchReads_begin] at hf
    have hx : exec (d.assemble s.cellAtPc) (s.begin.log (fetchReads s d.op.length 0)) = .next t := by
      simpa [startStep, hf] using h
    exact .inr ⟨d, hd, hlen, hx, exec_next hx⟩
  · refine .inl ⟨es, e, hr, ?_, ?_⟩
    · cases he with
      | past a => exact .past a
      | word e h => exact .word e h
    · simpa [startStep, hf] using h.symm

/-- A new step at an instruction that lies in memory (R124). -/
theorem startStep_ok {s : State} {d : Decoded} (hd : decodeWord (s.cellAtPc 0) = .ok d)
    (h : s.pc.toNat + d.op.length ≤ s.memLen.val) :
    startStep s = exec (d.assemble s.cellAtPc) (s.begin.log (fetchReads s d.op.length 0)) := by
  have := fetchInstr_ok (s := s.begin) hd h
  rw [fetchReads_begin] at this
  simp [startStep, this]

/-- A new step reads nothing of the response and the port record of the step before. -/
theorem startStep_congr {s t : State} (h : s.begin = t.begin) : startStep s = startStep t := by
  simp [startStep, h]

/-- A new step always answers a next state. -/
theorem startStep_answers (s : State) : ∃ t, startStep s = .next t := by
  rcases fetchInstr_cases s.begin with ⟨d, hd, hlen, hf⟩ | ⟨es, e, -, -, hf⟩
  · have hpos : 0 < d.op.length := by
      unfold Opcode.length
      omega
    obtain ⟨t, ht⟩ := exec_answers (d.assemble s.begin.cellAtPc)
      (s := s.begin.log (fetchReads s.begin d.op.length 0)) (by
        simp only [State.log_pc, State.log_memLen]
        omega)
    exact ⟨t, by simpa [startStep, hf] using ht⟩
  · exact ⟨_, by simp [startStep, hf]; rfl⟩

end Sys2Proof.Machine
end

