-- ==== Sys2Proof/Machine/Assembly.lean ====
section
/-! DEFINITION. The spec's assembler notation (R97, R98): items with labels, the assembler to cells, and the printed form.
No behaviour of the machine depends on it (D25). -/

namespace Sys2Proof.Assembly

/-- A number in an operand or in `.word`: a literal, or the address a label names (R97). -/
inductive Value where
  | lit (v : Cell)
  | label (name : String)
deriving DecidableEq, Repr

/-- `[v]`, `#v` or `[rb+v]` (R97). -/
structure Operand where
  value : Value
  mode : Mode
deriving DecidableEq, Repr

/-- A line of a program (R97, R98). -/
inductive Item where
  /-- `label:`, the address of the next cell. -/
  | label (name : String)
  /-- `MNEMONIC op1, op2, op3`. -/
  | instr (op : Opcode) (args : List Operand)
  /-- `JMP t`, which stands for `JT #1, t`. -/
  | jmp (t : Operand)
  /-- `.word v1, v2, ...`. -/
  | word (vs : List Value)
deriving DecidableEq, Repr

/-- How many cells an item takes. -/
def Item.size : Item → Nat
  | .label _ => 0
  | .instr op _ => op.length
  | .jmp _ => 3
  | .word vs => vs.length

/-- The address that a label names, in a program that starts at address `a`. -/
def labelAddr : List Item → Nat → String → Option Nat
  | [], _, _ => none
  | .label n :: is, a, name => if n = name then some a else labelAddr is a name
  | i :: is, a, name => labelAddr is (a + i.size) name

/-- The cell of a value in the program `is`. -/
def cellOf (is : List Item) : Value → Option Cell
  | .lit v => some v
  | .label name => (labelAddr is 0 name).bind fun a => Cell.narrow (a : Int)

/-- The parameter of an operand in the program `is`. -/
def paramOf (is : List Item) (o : Operand) : Option Param := (cellOf is o.value).map fun v => ⟨v, o.mode⟩

/-- An opcode with its parameters as an instruction; `none` where their number is not the opcode's (R90). -/
def instrOf : Opcode → List Param → Option Instr
  | .add, [p1, p2, p3] => some (.add p1 p2 p3)
  | .mul, [p1, p2, p3] => some (.mul p1 p2 p3)
  | .inp, [p1] => some (.inp p1)
  | .out, [p1] => some (.out p1)
  | .jt, [p1, p2] => some (.jt p1 p2)
  | .jf, [p1, p2] => some (.jf p1 p2)
  | .lt, [p1, p2, p3] => some (.lt p1 p2 p3)
  | .eq, [p1, p2, p3] => some (.eq p1 p2 p3)
  | .arb, [p1] => some (.arb p1)
  | .hlt, [] => some .hlt
  | _, _ => none

/-- The cells of one item in the program `is`: an instruction gives its canonical encoding (R96, R97). -/
def itemCells (is : List Item) : Item → Option (List Cell)
  | .label _ => some []
  | .instr op args =>
    ((args.mapM (paramOf is)).bind (instrOf op)).bind fun i => if i.wellFormed then some (encode i) else none
  | .jmp t => (paramOf is t).map fun p => encode (Instr.jmp p)
  | .word vs => vs.mapM (cellOf is)

/-- The assembler: the program's image from address 0. -/
def assemble (is : List Item) : Option (List Cell) := (is.mapM (itemCells is)).map List.flatten

/-! ### The printed form -/

/-- The mnemonics (R19). -/
def mnemonic : Opcode → String
  | .add => "ADD"
  | .mul => "MUL"
  | .inp => "IN"
  | .out => "OUT"
  | .jt => "JT"
  | .jf => "JF"
  | .lt => "LT"
  | .eq => "EQ"
  | .arb => "ARB"
  | .hlt => "HLT"

/-- An operand as R97 writes it. -/
def printParam (p : Param) : String :=
  match p.m with
  | .position => "[" ++ toString p.v.val ++ "]"
  | .immediate => "#" ++ toString p.v.val
  | .relative => if p.v.val < 0 then "[rb" ++ toString p.v.val ++ "]" else "[rb+" ++ toString p.v.val ++ "]"

/-- An instruction as R97 writes it. -/
def printInstr (i : Instr) : String :=
  match i.params with
  | [] => mnemonic i.opcode
  | ps => mnemonic i.opcode ++ " " ++ ", ".intercalate (ps.map printParam)

end Sys2Proof.Assembly
end

