-- ==== Sys2Proof/Tests/Slice0.lean ====
section
/-! SUPPORT. The model's own tests. The expected values of the one-step tests are those of spec/95_test_vectors.md; each
test names its row. The witnesses at the end show, for each obligation with hypotheses, concrete data that meet them. -/

namespace Sys2Proof.Tests

open Sys2Proof Sys2Proof.Machine Sys2Proof.Safety

/-! ### Helpers -/

/-- A machine after reset with this image and MEM_LEN (R241): PC and RB are 0. -/
def machine (memLen : MemLen) (image : List Int) : State :=
  { State.reset with mem := Memory.place [] 0 (image.map Cell.ofInt), memLen := memLen }

/-- A literal cell. -/
def c (z : Int) : Cell := Cell.ofInt z

/-- Parameters as R97 writes them. -/
def pos (z : Int) : Param := ⟨c z, .position⟩
def imm (z : Int) : Param := ⟨c z, .immediate⟩
def rel (z : Int) : Param := ⟨c z, .relative⟩

/-- What `f` sees in the next state of an outcome. -/
def seen {α : Type} (o : Outcome) (f : State → α) : Option α :=
  match o with
  | .next t => some (f t)
  | _ => none

/-- Whether the outcome is a next state with `P`. -/
def nextWith (o : Outcome) (P : State → Bool) : Bool :=
  match o with
  | .next t => P t
  | _ => false

theorem exists_next {o : Outcome} {P : State → Prop} [DecidablePred P]
    (h : nextWith o (fun t => decide (P t)) = true) : ∃ t, o = .next t ∧ P t := by
  cases o with
  | next t => exact ⟨t, rfl, of_decide_eq_true h⟩
  | fault f => cases h
  | refused r => cases h

/-- INT64_MAX and INT64_MIN. -/
def big : Int := 9223372036854775807
def low : Int := -9223372036854775808

/-! ### WellFormed refuses an Immediate `out` operand (R88) -/

theorem test_wf_add_immediate_target : (Instr.add (pos 1) (pos 2) (imm 3)).wellFormed = false := by decide
theorem test_wf_mul_immediate_target : (Instr.mul (pos 1) (imm 2) (imm 3)).wellFormed = false := by decide
theorem test_wf_in_immediate_target : (Instr.inp (imm 3)).wellFormed = false := by decide
theorem test_wf_lt_immediate_target : (Instr.lt (rel 1) (pos 2) (imm 3)).wellFormed = false := by decide
theorem test_wf_eq_immediate_target : (Instr.eq (pos 1) (rel 2) (imm 3)).wellFormed = false := by decide
theorem test_wf_out_immediate : (Instr.out (imm 3)).wellFormed = true := by decide

/-! ### Decoding: words written out from R82 and R90, OP + 100 A + 1000 B + 10000 C -/

/-- The instruction that a whole list of cells is. -/
def decodes (cells : List Int) (i : Instr) : Bool :=
  match decode (cells.map Cell.ofInt) with
  | .ok (j, []) => decide (j = i)
  | _ => false

theorem test_decode_add : decodes [20101, 7, 8, 9] (.add (imm 7) (pos 8) (rel 9)) = true := by decide
theorem test_decode_mul : decodes [1202, 7, 8, 9] (.mul (rel 7) (imm 8) (pos 9)) = true := by decide
theorem test_decode_in : decodes [203, -7] (.inp (rel (-7))) = true := by decide
theorem test_decode_out : decodes [104, -7] (.out (imm (-7))) = true := by decide
theorem test_decode_jt : decodes [2105, 7, 8] (.jt (imm 7) (rel 8)) = true := by decide
theorem test_decode_jf : decodes [1006, 101, 0] (.jf (pos 101) (imm 0)) = true := by decide
theorem test_decode_lt : decodes [22107, 7, 8, 9] (.lt (imm 7) (rel 8) (rel 9)) = true := by decide
theorem test_decode_eq : decodes [1008, 100, 16, 101] (.eq (pos 100) (imm 16) (pos 101)) = true := by decide
theorem test_decode_arb : decodes [209, 1] (.arb (rel 1)) = true := by decide
theorem test_decode_hlt : decodes [99] .hlt = true := by decide

/-- R96: the digits of absent operands and the digits above them do not matter. -/
theorem test_decode_absent_digits : decodes [712204, 7] (.out (rel 7)) = true := by decide

/-- 2.1: 103 is IN with an Immediate target, 30004 is OUT with C = 3, -100 is negative. -/
theorem test_decode_refusals :
    decodeWord (c 103) = .error (.invalidAddressingMode 1) ∧
      decodeWord (c 30004) = .error (.invalidAddressingMode 3) ∧
      decodeWord (c (-100)) = .error (.invalidOpcode (c (-100))) := ⟨rfl, rfl, rfl⟩

/-- R97: `MUL [4], #3, [4]` assembles to 1002, 4, 3, 4. -/
theorem test_encode_mul : encode (.mul (pos 4) (imm 3) (pos 4)) = [1002, 4, 3, 4].map Cell.ofInt := by decide

/-- R97, R98: a label stands for its address, and JMP is JT #1. -/
theorem test_assemble_label :
    Assembly.assemble [.jmp ⟨.label "end", .immediate⟩, .word [.lit (c 5)], .label "end", .instr .hlt []] =
      some ([1105, 1, 4, 5, 99].map Cell.ofInt) := by decide

theorem test_print_relative : Assembly.printInstr (.out (rel (-1))) = "OUT [rb-1]" := by decide

/-- The host's two entry points: a table row's bits decode, and the next step runs them. -/
theorem test_table_word : decodeTableWord 64 99 = some .hlt := by decide
theorem test_table_word_operands :
    decodeTableWord 256 (1102 + 5 * 2 ^ 64 + (2 ^ 64 - 2) * 2 ^ 128 + 0 * 2 ^ 192) =
      some (.mul (imm 5) (imm (-2)) (pos 0)) := by decide
theorem test_with_fetch_word : seen (step (State.reset.withFetchWord 64 99)) State.rsp = some (some .halted) := by decide
theorem test_with_fetch_word_in :
    seen (step (State.reset.withFetchWord 64 3)) State.phase = some (.awaitIn 0) := by decide

/-! ### One step of each instruction -/

/-- S1, step 1: ADD [0],[0],[0] gives mem[0] = 2. -/
theorem test_add_self :
    seen (step (machine 5 [1, 0, 0, 0, 99])) (fun t => (t.rsp, t.mem.get 0, t.pc)) = some (some .continued, c 2, 4) := by
  decide
/-- 2.3: INT64_MAX + 1 overflows. -/
theorem test_add_overflow :
    seen (step (machine 5 [1101, big, 1, 0, 99])) (fun t => (t.rsp, t.mem.get 0, t.pc)) =
      some (some (.error (.arithmeticOverflow .add (c big) (c 1))), c 1101, 0) := by decide
/-- 2.3: 2^32 * -2^31 = -2^63. -/
theorem test_mul_low :
    seen (step (machine 6 [1102, 4294967296, -2147483648, 5, 99, 0])) (fun t => (t.rsp, t.mem.get 5)) =
      some (some .continued, c low) := by decide
/-- 2.3: -2^63 * -1 overflows. -/
theorem test_mul_overflow :
    seen (step (machine 5 [1102, low, -1, 0, 99])) State.rsp =
      some (some (.error (.arithmeticOverflow .mul (c low) (c (-1))))) := by decide
/-- 2.4: IN [rb+1] with RB = 2 and 42 on the port. -/
theorem test_in_relative :
    seen (step { machine 4 [203, 1, 99, 0] with rb := c 2, inAnswers := [.ok (c 42)] })
      (fun t => (t.mem.get 3, t.pc, t.inAnswers)) = some (c 42, 2, []) := by decide
/-- 2.4: an IN whose target is outside memory sends no request, and the value stays queued. -/
theorem test_in_bad_target :
    seen (step { machine 3 [3, 5, 99] with inAnswers := [.ok (c 7)] }) (fun t => (t.rsp, t.inAnswers)) =
      some (some (.error (.invalidAddress 5 (some (pos 5)))), [.ok (c 7)]) := by decide
/-- 2.4: OUT #-7. -/
theorem test_out_immediate :
    seen (step { machine 3 [104, -7, 99] with outAcks := 1 }) (fun t => (t.outputs, t.pc)) = some ([c (-7)], 2) := by
  decide
/-- 2.2: OUT [rb+12] with RB = -10 gives mem[2]. -/
theorem test_out_relative :
    seen (step { machine 3 [204, 12, 99] with rb := c (-10), outAcks := 1 }) State.outputs = some [c 99] := by decide
/-- 2.5: JT #-1, #7 jumps. -/
theorem test_jt_negative : seen (step (machine 3 [1105, -1, 7])) State.pc = some 7 := by decide
/-- 2.5: JT [1],[0] takes its condition from cell 1 and its target from cell 0. -/
theorem test_jt_position : seen (step (machine 3 [5, 1, 0])) State.pc = some 5 := by decide
/-- 2.5: JF #5, #4 falls through. -/
theorem test_jf_not_taken : seen (step (machine 4 [1106, 5, 4, 99])) State.pc = some 3 := by decide
/-- 2.5: JF #0, #-1 is a taken jump to a negative target. -/
theorem test_jf_negative_target :
    seen (step (machine 3 [1106, 0, -1])) (fun t => (t.rsp, t.pc)) =
      some (some (.error (.invalidAddress (-1) (some (imm (-1))))), 0) := by decide
/-- 2.6: -2^63 < 2^63 - 1. -/
theorem test_lt_extremes :
    seen (step (machine 6 [1107, low, big, 5, 99, 7])) (fun t => t.mem.get 5) = some (c 1) := by decide
/-- 2.6: 1 < -1 is false. -/
theorem test_lt_signed : seen (step (machine 6 [1107, 1, -1, 5, 99, 7])) (fun t => t.mem.get 5) = some (c 0) := by decide
/-- 2.6: EQ #5, #5. -/
theorem test_eq_same : seen (step (machine 6 [1108, 5, 5, 5, 99, 9])) (fun t => t.mem.get 5) = some (c 1) := by decide
/-- 2.6: EQ #5, #6. -/
theorem test_eq_differs : seen (step (machine 6 [1108, 5, 6, 5, 99, 9])) (fun t => t.mem.get 5) = some (c 0) := by decide
/-- 2.7: ARB [rb+1] with RB = 1 reads mem[2] = 99. -/
theorem test_arb_relative :
    seen (step { machine 3 [209, 1, 99] with rb := c 1 }) (fun t => (t.rb, t.pc)) = some (c 100, 2) := by decide
/-- 2.7: -2^63 + -1 overflows, and RB stays. -/
theorem test_arb_overflow :
    seen (step { machine 3 [109, -1, 99] with rb := c low }) (fun t => (t.rsp, t.rb)) =
      some (some (.error (.arithmeticOverflow .arb (c low) (c (-1)))), c low) := by decide
/-- 2.1: 1099 is HLT with an unused digit; PC stays. -/
theorem test_hlt : seen (step (machine 1 [1099])) (fun t => (t.rsp, t.pc)) = some (some .halted, 0) := by decide

/-! ### Witnesses: data that meet the hypotheses of the obligations -/

/-- The states that the witnesses use. -/
def sAdd : State := machine 6 [1101, 2, 3, 5, 99, 0]
def sAddOver : State := machine 5 [1101, big, 1, 0, 99]
def sMulOver : State := machine 5 [1102, low, -1, 0, 99]
def sIn : State := { machine 4 [3, 3, 99, 0] with inAnswers := [.ok (c (-5))] }
def sInFail : State := { machine 4 [3, 3, 99, 0] with inAnswers := [.fail, .ok (c 7)] }
def sOut : State := { machine 3 [104, -7, 99] with outAcks := 1 }
def sWaitIn : State := { machine 4 [3, 3, 99, 0] with phase := .awaitIn 3, events := [.inReq] }
def sWaitOut : State := { machine 3 [104, -7, 99] with phase := .awaitOut (c (-7)), events := [.outValid (c (-7))] }
def sHlt : State := machine 1 [99]
def sArb : State := { machine 3 [209, 1, 99] with rb := c 1 }

theorem sAdd_inv : Inv sAdd := ⟨⟨by decide, by decide⟩, trivial⟩
theorem sWaitIn_inv : Inv sWaitIn := ⟨⟨by decide, by decide⟩, by decide, by decide, rfl⟩
theorem sWaitOut_inv : Inv sWaitOut := ⟨⟨by decide, by decide⟩, by decide, rfl⟩

/-- L = MEM_LEN, and an empty image. -/
theorem witness_ResetLoadsTheImage : [c 1, c 99].length ≤ (2 : MemLen).val ∧ ([] : List Cell).length ≤ (0 : MemLen).val := by
  decide

theorem witness_ResetHoldsTheInvariants : ∃ s, boot [c 1, c 99] 2 = .next s := ⟨_, rfl⟩

/-- Growth to the same length, to the largest, and a shrink. -/
theorem witness_HostGrowthAppendsZeros :
    MemInv sAdd ∧ sAdd.phase = .idle ∧ sAdd.memLen.val ≤ (6 : MemLen).val ∧
      sAdd.memLen.val ≤ (9223372036854775808 : MemLen).val ∧ (5 : MemLen).val < sAdd.memLen.val :=
  ⟨sAdd_inv.1, rfl, by decide, by decide, by decide⟩

/-- Each act of the host: the last cell and the largest PC among them. -/
theorem witness_HostActsKeepTheInvariants :
    Inv sAdd ∧ (∃ t, hostWriteCell 5 (c 7) sAdd = .next t) ∧
      (∃ t, hostWritePc 18446744073709551615 sAdd = .next t) ∧ (∃ t, hostWriteRb (c low) sAdd = .next t) ∧
      (∃ t, hostGrow 9223372036854775808 sAdd = .next t) ∧
      (∃ t, t = offerInput .fail sAdd) ∧ ∃ t, t = offerAck sAdd :=
  ⟨sAdd_inv, ⟨_, rfl⟩, ⟨_, rfl⟩, ⟨_, rfl⟩, ⟨_, rfl⟩, ⟨_, rfl⟩, ⟨_, rfl⟩⟩

theorem witness_HostActsAreRefusedDuringAStep :
    sWaitIn.phase ≠ .idle ∧ 3 < sWaitIn.memLen.val ∧ sWaitIn.memLen.val ≤ (4 : MemLen).val := by decide

theorem witness_DecodeOfEncode :
    (Instr.add (imm 7) (pos 8) (rel 9)).wellFormed = true ∧ Instr.hlt.wellFormed = true := by decide

theorem witness_DecodedInstructionsAreWellFormed :
    decode [c 20101, c 7, c 8, c 9, c 0] = .ok (.add (imm 7) (pos 8) (rel 9), [c 0]) := rfl

/-- An instruction with three operands and one with none, with other digits in its word. -/
theorem witness_EncodingsOfAnInstruction :
    (Instr.add (imm 7) (pos 8) (rel 9)).wellFormed = true ∧
      (c 20101).val = ((0 * 100000 + 2 * 10000 + 0 * 1000 + 1 * 100 + Opcode.add.num : Nat) : Int) ∧
      Instr.hlt.wellFormed = true ∧
      (c 712299).val = ((7 * 100000 + 1 * 10000 + 2 * 1000 + 2 * 100 + Opcode.hlt.num : Nat) : Int) := by decide

theorem witness_HighDigitsAreIgnored :
    (0 ≤ (c 201101).val ∧ 0 ≤ (c 1101).val ∧ (c 201101).val % 100000 = (c 1101).val % 100000) ∧
      0 ≤ (c big).val ∧ (c big).val % 100000 = (c 75807).val % 100000 := by decide

/-- The words -1, 0, 10, 98 (2.1), and 9 and 99, which select an instruction. -/
theorem witness_InvalidOpcodes :
    AtWord (machine 1 [-1]) (c (-1)) ∧ AtWord (machine 1 [0]) (c 0) ∧ AtWord (machine 1 [10]) (c 10) ∧
      AtWord (machine 1 [98]) (c 98) ∧ AtWord (machine 1 [9]) (c 9) ∧ AtWord (machine 1 [99]) (c 99) ∧
      (c (-1)).val < 0 ∧ (c 0).val % 100 = 0 ∧ 10 ≤ (c 10).val % 100 ∧ (c 98).val % 100 ≤ 98 ∧
      ¬((c 9).val < 0 ∨ (c 9).val % 100 = 0 ∨ (10 ≤ (c 9).val % 100 ∧ (c 9).val % 100 ≤ 98)) ∧
      ¬((c 99).val < 0 ∨ (c 99).val % 100 = 0 ∨ (10 ≤ (c 99).val % 100 ∧ (c 99).val % 100 ≤ 98)) := by
  unfold AtWord
  decide

/-- 399 (k = 1, 3), 30004 (k = 3), 103 (k = 1, Immediate target), 9002 (k = 2, 9). -/
theorem witness_IllegalModeDigits :
    (AtWord (machine 1 [399]) (c 399) ∧ opcodeOf (399 % 100) = some .hlt ∧ ¬ legalDigit .hlt 1 (digit 399 2)) ∧
    (AtWord (machine 2 [30004, 0]) (c 30004) ∧ opcodeOf (30004 % 100) = some .out ∧
      ¬ legalDigit .out 3 (digit 30004 4) ∧ ∀ j, 1 ≤ j → j < 3 → legalDigit .out j (digit 30004 (j + 1))) ∧
    (AtWord (machine 2 [103, 0]) (c 103) ∧ opcodeOf (103 % 100) = some .inp ∧ ¬ legalDigit .inp 1 (digit 103 2)) ∧
    (AtWord (machine 1 [9002]) (c 9002) ∧ opcodeOf (9002 % 100) = some .mul ∧
      ¬ legalDigit .mul 2 (digit 9002 3) ∧ ∀ j, 1 ≤ j → j < 2 → legalDigit .mul j (digit 9002 (j + 1))) := by
  unfold AtWord legalDigit
  refine ⟨by decide, ⟨by decide, by decide, by decide, ?_⟩, by decide, ⟨by decide, by decide, by decide, ?_⟩⟩
  · intro j h1 h2
    obtain rfl | rfl : j = 1 ∨ j = 2 := by omega
    all_goals decide
  · intro j h1 h2
    obtain rfl : j = 1 := by omega
    decide

/-- The extreme effective addresses, -2^64 and 2^64 - 2 (2.2). -/
theorem witness_EffectiveAddresses :
    effectiveAddr { sAdd with rb := c low } (rel low) = some (-18446744073709551616) ∧
      effectiveAddr { sAdd with rb := c big } (rel big) = some 18446744073709551614 := ⟨rfl, rfl⟩

/-- Immediate mode; the addresses -1, 0, MEM_LEN - 1 and MEM_LEN. -/
theorem witness_ValueResolution :
    (imm 7).m = .immediate ∧ effectiveAddr sAdd (pos (-1)) = some (-1) ∧ effectiveAddr sAdd (pos 0) = some 0 ∧
      effectiveAddr sAdd (pos 5) = some 5 ∧ 5 < sAdd.memLen.val ∧ effectiveAddr sAdd (pos 6) = some 6 ∧
      (sAdd.memLen.val : Int) ≤ 6 := by decide

theorem witness_AddressResolution :
    effectiveAddr sAdd (rel (-1)) = some (-1) ∧ effectiveAddr sAdd (rel 0) = some 0 ∧
      effectiveAddr sAdd (rel 5) = some 5 ∧ 5 < sAdd.memLen.val ∧ effectiveAddr sAdd (rel 6) = some 6 ∧
      (sAdd.memLen.val : Int) ≤ 6 := by decide

/-- The third operand of an ADD, and the first of an OUT. -/
theorem witness_FirstUnresolvedOperandIsReported :
    ((Instr.add (imm 1) (pos 5) (pos 6)).params[2]? = some (pos 6) ∧
      (Instr.add (imm 1) (pos 5) (pos 6)).opcode.kinds[2]? = some .write ∧
      operandError sAdd .write (pos 6) = some (.invalidAddress 6 (some (pos 6))) ∧
      operandError sAdd .read (imm 1) = none ∧ operandError sAdd .read (pos 5) = none) ∧
    ((Instr.out (pos (-1))).params[0]? = some (pos (-1)) ∧ (Instr.out (pos (-1))).opcode.kinds[0]? = some .read ∧
      operandError sAdd .read (pos (-1)) = some (.invalidAddress (-1) (some (pos (-1))))) := by decide

theorem witness_UntakenJumpResolvesItsTarget :
    resolveValue sAdd (pos 7) = .error (.invalidAddress 7 (some (pos 7))) ∧ resolveValue sAdd (imm 0) = .ok (c 0) ∧ effectiveAddr sAdd (pos 6) = some 6 ∧ (sAdd.memLen.val : Int) ≤ 6 ∧
      effectiveAddr sAdd (pos (-1)) = some (-1) := ⟨rfl, rfl, rfl, by decide, rfl⟩

theorem witness_CanonicalMemoryIsUnique : sAdd.mem.wf = true ∧ ∀ a, sAdd.mem.get a = sAdd.mem.get a :=
  ⟨by decide, fun _ => rfl⟩

/-- The instruction ends exactly at MEM_LEN. -/
theorem witness_StepRunsTheDecodedInstruction :
    AtWord (machine 4 [20101, 7, 8, 9]) (c 20101) ∧
      decodeWord (c 20101) = .ok ⟨.add, .immediate, .position, .relative⟩ ∧
      (machine 4 [20101, 7, 8, 9]).pc.toNat + Opcode.add.length ≤ (machine 4 [20101, 7, 8, 9]).memLen.val := by
  unfold AtWord
  exact ⟨by decide, rfl, by decide⟩

theorem witness_StepRunsTheCellsAtPc :
    sHlt.phase = .idle ∧ CellsAtPc sHlt [c 99] ∧ decode [c 99] = .ok (.hlt, []) := by
  refine ⟨rfl, ⟨by decide, ?_⟩, rfl⟩
  intro k v h
  match k, h with
  | 0, h => cases h; decide
  | k + 1, h => simp at h

/-- PC = MEM_LEN, memory empty, the largest PC, and PC = MEM_LEN - 1. -/
theorem witness_WordFetch :
    State.reset.phase = .idle ∧ State.reset.memLen.val ≤ State.reset.pc.toNat ∧
      ({ sHlt with pc := 1 } : State).memLen.val ≤ ({ sHlt with pc := 1 } : State).pc.toNat ∧
      ({ sHlt with pc := 18446744073709551615 } : State).memLen.val ≤
        ({ sHlt with pc := 18446744073709551615 } : State).pc.toNat ∧
      sHlt.phase = .idle ∧ sHlt.pc.toNat < sHlt.memLen.val ∧ ∃ t, step sHlt = .next t ∧ t.rsp = some .halted :=
  ⟨by decide, by decide, by decide, by decide, rfl, by decide, exists_next (by decide)⟩

/-- `[4]` (k = 1) and `[1101,1,1]` (k = 3) of 2.1. -/
theorem witness_OperandFetchPastTheEnd :
    (AtWord (machine 1 [4]) (c 4) ∧ decodeWord (c 4) = .ok ⟨.out, .position, .position, .position⟩ ∧
      1 ≤ Opcode.out.arity ∧ (machine 1 [4]).memLen.val ≤ 1) ∧
    (AtWord (machine 3 [1101, 1, 1]) (c 1101) ∧ decodeWord (c 1101) = .ok ⟨.add, .immediate, .immediate, .position⟩ ∧
      3 ≤ Opcode.add.arity ∧ 2 < (machine 3 [1101, 1, 1]).memLen.val ∧ (machine 3 [1101, 1, 1]).memLen.val ≤ 3) := by
  unfold AtWord
  exact ⟨⟨by decide, rfl, by decide, by decide⟩, ⟨by decide, rfl, by decide, by decide, by decide⟩⟩

/-- An overflow, and an input failure. -/
theorem witness_ErrorsArePrecise :
    (∃ t, step sAddOver = .next t ∧ t.rsp = some (.error (.arithmeticOverflow .add (c big) (c 1)))) ∧
      ∃ t, step sInFail = .next t ∧ t.rsp = some (.error .inputUnavailable) :=
  ⟨exists_next (by decide), exists_next (by decide)⟩

theorem witness_ErrorsRepeat :
    (∃ t, step (machine 1 [0]) = .next t ∧ t.rsp = some (.error (.invalidOpcode 0 (c 0)))) ∧
      StepError.invalidOpcode 0 (c 0) ≠ .inputUnavailable := ⟨exists_next (by decide), by decide⟩

/-- Each kind: a term without an encoding, an operand outside memory, a negative target, an input failure, and the three
overflows. -/
theorem witness_ErrorsByInstruction :
    (∃ t, exec (.inp (imm 1)) sAdd = .next t ∧ t.rsp = some (.error (.invalidAddressingMode 1))) ∧
    (∃ t, exec (.out (pos 6)) sAdd = .next t ∧ t.rsp = some (.error (.invalidAddress 6 (some (pos 6))))) ∧
    (∃ t, exec (.jf (imm 0) (imm (-1))) sAdd = .next t ∧ t.rsp = some (.error (.invalidAddress (-1) (some (imm (-1)))))) ∧
    (∃ t, exec (.inp (pos 3)) sInFail = .next t ∧ t.rsp = some (.error .inputUnavailable)) ∧
    (∃ t, exec (.add (imm big) (imm 1) (pos 0)) sAdd = .next t ∧
      t.rsp = some (.error (.arithmeticOverflow .add (c big) (c 1)))) ∧
    (∃ t, exec (.mul (imm low) (imm (-1)) (pos 0)) sAdd = .next t ∧
      t.rsp = some (.error (.arithmeticOverflow .mul (c low) (c (-1))))) ∧
    ∃ t, exec (.arb (imm big)) sArb = .next t ∧ t.rsp = some (.error (.arithmeticOverflow .arb (c 1) (c big))) :=
  ⟨exists_next (by decide), exists_next (by decide), exists_next (by decide), exists_next (by decide),
    exists_next (by decide), exists_next (by decide), exists_next (by decide)⟩

/-- An advance, a jump to the largest target, and the host's write of 2^63 + 3. -/
theorem witness_PcNeverWraps :
    WaitInv sAdd ∧ (∃ t, step sAdd = .next t ∧ t.rsp = some .continued) ∧ WaitInv (machine 3 [1105, 1, big]) ∧
      (∃ t, step (machine 3 [1105, 1, big]) = .next t ∧ t.rsp = some .continued) ∧
      sAdd.phase = .idle ∧ 9223372036854775811 ≤ (9223372036854775811 : PcWord).toNat :=
  ⟨trivial, exists_next (by decide), trivial, exists_next (by decide), rfl, by decide⟩

/-- Every shape completes, jumps taken and not, and both waits. -/
theorem witness_NextPcTable :
    sAdd.pc.toNat < sAdd.memLen.val ∧
    (∃ t, exec (.eq (imm 1) (imm 1) (pos 0)) sAdd = .next t ∧ t.rsp = some .continued) ∧
    (∃ t, exec (.arb (imm 1)) sAdd = .next t ∧ t.rsp = some .continued) ∧
    (∃ t, exec (.jt (imm 1) (imm 7)) sAdd = .next t ∧ t.rsp = some .continued) ∧
    (∃ t, exec (.jt (imm 0) (imm 7)) sAdd = .next t ∧ t.rsp = some .continued) ∧
    (∃ t, exec (.jf (imm 0) (imm 7)) sAdd = .next t ∧ t.rsp = some .continued) ∧
    (∃ t, exec (.jf (imm 1) (imm 7)) sAdd = .next t ∧ t.rsp = some .continued) ∧
    (∃ t, exec .hlt sAdd = .next t ∧ t.rsp = some .halted) ∧
    (∃ t, step { sWaitIn with inAnswers := [.ok (c 7)] } = .next t ∧ t.rsp = some .continued) ∧
    ∃ t, step { sWaitOut with outAcks := 1 } = .next t ∧ t.rsp = some .continued :=
  ⟨by decide, exists_next (by decide), exists_next (by decide), exists_next (by decide), exists_next (by decide),
    exists_next (by decide), exists_next (by decide), exists_next (by decide), exists_next (by decide),
    exists_next (by decide)⟩

theorem witness_EveryStepAnswers : WaitInv State.reset ∧ WaitInv sWaitIn ∧ WaitInv sWaitOut :=
  ⟨trivial, sWaitIn_inv.2, sWaitOut_inv.2⟩

/-- A new step that writes, and both waits going on. -/
theorem witness_StepKeepsTheInvariant :
    (Inv sAdd ∧ ∃ t, step sAdd = .next t ∧ t.mem.get 5 = c 5) ∧
      (Inv sWaitIn ∧ ∃ t, step sWaitIn = .next t ∧ t.phase = .awaitIn 3) ∧
      Inv sWaitOut ∧ ∃ t, step sWaitOut = .next t ∧ t.phase = .awaitOut (c (-7)) :=
  ⟨⟨sAdd_inv, exists_next (by decide)⟩, ⟨sWaitIn_inv, exists_next (by decide)⟩, sWaitOut_inv, exists_next (by decide)⟩

theorem witness_StepKeepsThePortBounds :
    (WaitInv sAdd ∧ PortInv sAdd ∧ ∃ t, step sAdd = .next t ∧ t.events.length = 5) ∧
      WaitInv { sWaitIn with inAnswers := [.ok (c 7)] } ∧ PortInv { sWaitIn with inAnswers := [.ok (c 7)] } ∧
        ∃ t, step { sWaitIn with inAnswers := [.ok (c 7)] } = .next t ∧ t.events.length = 3 := by
  refine ⟨⟨trivial, ⟨⟨by simp [sAdd, machine, State.reset], by decide, by decide, by decide, .nil⟩, by decide⟩,
    exists_next (by decide)⟩, sWaitIn_inv.2, ⟨⟨?_, by decide, by decide, by decide, by decide⟩, by decide⟩,
    exists_next (by decide)⟩
  intro e he a ha
  obtain rfl : e = .inReq := by simpa [sWaitIn] using he
  cases ha

theorem witness_ExecPortTraffic : ∃ t, exec (.add (pos 5) (pos 4) (pos 3)) sAdd = .next t ∧ t.events.length = 3 :=
  exists_next (by decide)

theorem witness_MemoryFollowsTheMemPort :
    sAdd.phase = .idle ∧ ∃ t, step sAdd = .next t ∧ PortEvent.memWrite 5 (c 5) ∈ t.events ∧
      PortEvent.memRead 0 (c 1101) ∈ t.events := ⟨rfl, exists_next (by decide)⟩

/-- Two states that differ in the response, the port record and the outputs. -/
theorem witness_StepDependsOnTheTripleAndTheHost :
    sOut.phase = .idle ∧ ({ sOut with rsp := some .halted, events := [.inReq], outputs := [c 1] } : State) ≠ sOut ∧
      ∃ t, step sOut = .next t ∧ t.outputs = [c (-7)] := ⟨rfl, by decide, exists_next (by decide)⟩

/-- ARB changes RB; a JT without a Relative operand runs. -/
theorem witness_OnlyArbWritesRb :
    (∃ t, exec (.arb (imm 5)) sAdd = .next t ∧ t.rb ≠ sAdd.rb) ∧
      (∀ p, Instr.jt (imm 1) (imm 7) ≠ .arb p) ∧ (∀ p ∈ (Instr.jt (imm 1) (imm 7)).params, p.m ≠ .relative) ∧
      ∃ t, exec (.jt (imm 1) (imm 7)) sAdd = .next t ∧ t.pc = 7 :=
  ⟨exists_next (by decide), by simp, by decide, exists_next (by decide)⟩

/-- Operands that resolve: Immediate, the last cell, and the sum -1 of INT64_MIN and INT64_MAX. -/
theorem witness_AddStoresTheSum :
    sAdd.pc.toNat < sAdd.memLen.val ∧ resolveValue sAdd (imm low) = .ok (c low) ∧
      resolveValue sAdd (imm big) = .ok (c big) ∧ resolveAddress sAdd (pos 5) = .ok 5 ∧
      (c (-1)).val = (c low).val + (c big).val := ⟨by decide, rfl, rfl, rfl, by decide⟩

theorem witness_MulStoresTheProduct :
    sAdd.pc.toNat < sAdd.memLen.val ∧ resolveValue sAdd (imm low) = .ok (c low) ∧
      resolveValue sAdd (imm 1) = .ok (c 1) ∧ resolveAddress sAdd (pos 5) = .ok 5 ∧
      (c low).val = (c low).val * (c 1).val := ⟨by decide, rfl, rfl, rfl, by decide⟩

/-- Less, and not less. -/
theorem witness_LtStoresTheComparison :
    sAdd.pc.toNat < sAdd.memLen.val ∧ resolveValue sAdd (imm low) = .ok (c low) ∧
      resolveValue sAdd (imm big) = .ok (c big) ∧ resolveAddress sAdd (pos 5) = .ok 5 ∧
      (c 1).val = (if (c low).val < (c big).val then 1 else 0) ∧
      (c 0).val = (if (c big).val < (c low).val then 1 else 0) := ⟨by decide, rfl, rfl, rfl, by decide, by decide⟩

/-- Equal, and not equal. -/
theorem witness_EqStoresTheComparison :
    sAdd.pc.toNat < sAdd.memLen.val ∧ resolveValue sAdd (imm 5) = .ok (c 5) ∧
      resolveValue sAdd (imm 6) = .ok (c 6) ∧ resolveAddress sAdd (pos 5) = .ok 5 ∧
      (c 1).val = (if (c 5).val = (c 5).val then 1 else 0) ∧
      (c 0).val = (if (c 5).val = (c 6).val then 1 else 0) := ⟨by decide, rfl, rfl, rfl, by decide, by decide⟩

/-- One past either end of INT64. -/
theorem witness_ArithmeticIsExactOrOverflows :
    (resolveValue sAdd (imm big) = .ok (c big) ∧ resolveValue sAdd (imm 1) = .ok (c 1) ∧
      resolveAddress sAdd (pos 5) = .ok 5 ∧ ¬ InInt64 ((c big).val + (c 1).val)) ∧
    (resolveValue sAdd (imm low) = .ok (c low) ∧ resolveValue sAdd (imm (-1)) = .ok (c (-1)) ∧
      ¬ InInt64 ((c low).val * (c (-1)).val)) := ⟨⟨rfl, rfl, rfl, by decide⟩, rfl, rfl, by decide⟩

/-- A store, a target that does not resolve, and an overflow. -/
theorem witness_StoringInstructionsFrame :
    (∃ t, exec (.lt (imm 1) (imm 2) (pos 3)) sAdd = .next t ∧ t.mem.get 3 = c 1) ∧
      resolveAddress sAdd (pos 3) = .ok 3 ∧
      (∃ t, exec (.eq (imm 1) (imm 2) (pos 6)) sAdd = .next t ∧
        t.rsp = some (.error (.invalidAddress 6 (some (pos 6))))) ∧
      resolveAddress sAdd (pos 6) = .error (.invalidAddress 6 (some (pos 6))) ∧
      ∃ t, exec (.mul (imm low) (imm (-1)) (pos 0)) sAdd = .next t ∧
        t.rsp = some (.error (.arithmeticOverflow .mul (c low) (c (-1)))) :=
  ⟨exists_next (by decide), rfl, exists_next (by decide), rfl, exists_next (by decide)⟩

theorem witness_InStoresTheHostsValue :
    sIn.pc.toNat < sIn.memLen.val ∧ resolveAddress sIn (pos 3) = .ok 3 ∧ sIn.inAnswers = .ok (c (-5)) :: [] :=
  ⟨by decide, rfl, rfl⟩

theorem witness_InFailsWithTheHost :
    resolveAddress sInFail (pos 3) = .ok 3 ∧ sInFail.inAnswers = .fail :: [.ok (c 7)] := ⟨rfl, rfl⟩

/-- A value used up by a new step and by a waiting one, a failure used up, another error, and a failed IN to issue again. -/
theorem witness_InputIsConsumedByACommit :
    (∃ t, step sIn = .next t ∧ t.inAnswers ≠ sIn.inAnswers ∧ t.mem.get 3 = c (-5)) ∧
      (∃ t, step { sWaitIn with inAnswers := [.ok (c 7)] } = .next t ∧ t.inAnswers ≠ [.ok (c 7)] ∧
        t.mem.get 3 = c 7) ∧
      (∃ t, step sInFail = .next t ∧ t.inAnswers ≠ sInFail.inAnswers) ∧
      (∃ t, step { machine 3 [3, 5, 99] with inAnswers := [.ok (c 7)] } = .next t ∧
        t.rsp = some (.error (.invalidAddress 5 (some (pos 5))))) ∧
      StepError.invalidAddress 5 (some (pos 5)) ≠ .inputUnavailable ∧
      AtWord sInFail (c 3) ∧ decodeWord (c 3) = .ok ⟨.inp, .position, .position, .position⟩ ∧
      sInFail.pc.toNat + 2 ≤ sInFail.memLen.val ∧
      resolveAddress sInFail ⟨sInFail.mem.get (sInFail.pc.toNat + 1), .position⟩ = .ok 3 ∧
      sInFail.inAnswers = .fail :: .ok (c 7) :: [] := by
  unfold AtWord
  exact ⟨exists_next (by decide), exists_next (by decide), exists_next (by decide), exists_next (by decide), by decide,
    by decide, rfl, by decide, rfl, rfl⟩

theorem witness_OutEmitsTheValue :
    sOut.pc.toNat < sOut.memLen.val ∧ resolveValue sOut (imm (-7)) = .ok (c (-7)) ∧ sOut.outAcks = 0 + 1 :=
  ⟨by decide, rfl, rfl⟩

theorem witness_IoWaitsForTheHost :
    (resolveAddress sAdd (pos 5) = .ok 5 ∧ sAdd.inAnswers = []) ∧ resolveValue sAdd (pos 5) = .ok (c 0) ∧
      sAdd.outAcks = 0 := ⟨⟨rfl, rfl⟩, rfl, rfl⟩

theorem witness_WaitsEndWithTheAnswer :
    (sWaitIn.phase = .awaitIn 3 ∧ sWaitIn.rsp = none ∧ sWaitIn.inAnswers = [] ∧ sWaitIn.pc.toNat < sWaitIn.memLen.val) ∧
    (sWaitOut.phase = .awaitOut (c (-7)) ∧ sWaitOut.rsp = none ∧ sWaitOut.outAcks = 0 ∧
      sWaitOut.pc.toNat < sWaitOut.memLen.val) ∧
    ({ sWaitIn with inAnswers := [.ok (c low)] } : State).inAnswers = .ok (c low) :: [] ∧
    ({ sWaitOut with outAcks := 1 } : State).outAcks = 0 + 1 ∧
    ({ sWaitIn with inAnswers := [.fail] } : State).inAnswers = .fail :: [] ∧
    sAdd.phase = .idle ∧ (∃ t, exec (.inp (pos 5)) sAdd = .next t ∧ t.phase ≠ .idle) ∧
    ∃ t, exec (.out (pos 5)) sAdd = .next t ∧ t.phase ≠ .idle :=
  ⟨by decide, by decide, rfl, rfl, rfl, rfl, exists_next (by decide), exists_next (by decide)⟩

theorem witness_OnlyAWaitingInCanBeCancelled :
    (sWaitIn.phase = .awaitIn 3 ∧ ({ sWaitIn with inAnswers := [.fail] } : State).inAnswers = .fail :: []) ∧
      (sWaitOut.phase = .awaitOut (c (-7)) ∧ ∃ t, step sWaitOut = .next t ∧ t.rsp = none) ∧
      ∃ t, step { sWaitOut with outAcks := 1 } = .next t ∧ t.rsp = some .continued :=
  ⟨⟨rfl, rfl⟩, ⟨rfl, exists_next (by decide)⟩, exists_next (by decide)⟩

/-- A store, a target that does not resolve, and a failure. -/
theorem witness_InFrame :
    (∃ t, exec (.inp (pos 3)) sIn = .next t ∧ t.mem.get 3 = c (-5)) ∧ resolveAddress sIn (pos 3) = .ok 3 ∧
      (∃ t, exec (.inp (pos 4)) sIn = .next t ∧ t.rsp ≠ some .continued) ∧
      resolveAddress sIn (pos 4) = .error (.invalidAddress 4 (some (pos 4))) ∧
      ∃ t, exec (.inp (pos 3)) sInFail = .next t ∧ t.rsp ≠ some .continued :=
  ⟨exists_next (by decide), rfl, exists_next (by decide), rfl, exists_next (by decide)⟩

theorem witness_NonStoringInstructionsFrame :
    (∃ t, exec (.out (imm 1)) sOut = .next t ∧ t.outputs = [c 1]) ∧ (∃ t, exec (.arb (imm 1)) sOut = .next t ∧ t.rb = c 1) ∧
      (∃ t, exec (.jt (imm 1) (imm 7)) sOut = .next t ∧ t.pc = 7) ∧
      (∃ t, exec (.jf (imm 1) (imm 7)) sOut = .next t ∧ t.pc = 3) ∧ ∃ t, exec .hlt sOut = .next t ∧ t.rsp = some .halted :=
  ⟨exists_next (by decide), exists_next (by decide), exists_next (by decide), exists_next (by decide),
    exists_next (by decide)⟩

/-- Taken on -1 to the largest target, and not taken with a negative target. -/
theorem witness_JtJumpsOnNonZero :
    sAdd.pc.toNat < sAdd.memLen.val ∧
      (resolveValue sAdd (imm (-1)) = .ok (c (-1)) ∧ resolveValue sAdd (imm big) = .ok (c big) ∧
        ((c (-1)).val ≠ 0 → 0 ≤ (c big).val)) ∧
      resolveValue sAdd (imm 0) = .ok (c 0) ∧ ((c 0).val ≠ 0 → 0 ≤ (c (-1)).val) :=
  ⟨by decide, ⟨rfl, rfl, by decide⟩, rfl, by decide⟩

theorem witness_JfJumpsOnZero :
    sAdd.pc.toNat < sAdd.memLen.val ∧
      (resolveValue sAdd (imm 0) = .ok (c 0) ∧ resolveValue sAdd (imm big) = .ok (c big) ∧
        ((c 0).val = 0 → 0 ≤ (c big).val)) ∧
      resolveValue sAdd (imm (-1)) = .ok (c (-1)) ∧ ((c (-1)).val = 0 → 0 ≤ (c (-1)).val) :=
  ⟨by decide, ⟨rfl, rfl, by decide⟩, rfl, by decide⟩

/-- The targets -1, 0, MEM_LEN - 1 and MEM_LEN, on a condition that is zero and on one that is not. -/
theorem witness_TakenJumpTargets :
    resolveValue sAdd (imm 0) = .ok (c 0) ∧ resolveValue sAdd (imm 1) = .ok (c 1) ∧
      (resolveValue sAdd (imm (-1)) = .ok (c (-1)) ∧ (c (-1)).val < 0) ∧ 0 ≤ (c 0).val ∧
      (resolveValue sAdd (imm 5) = .ok (c 5) ∧ ¬ (sAdd.memLen.val : Int) ≤ (c 5).val) ∧
      resolveValue sAdd (imm 6) = .ok (c 6) ∧ (sAdd.memLen.val : Int) ≤ (c 6).val :=
  ⟨rfl, rfl, ⟨rfl, by decide⟩, by decide, ⟨rfl, by decide⟩, rfl, by decide⟩

theorem witness_ArbAdjustsRb :
    sArb.pc.toNat < sArb.memLen.val ∧ resolveValue sArb (imm (-1)) = .ok (c (-1)) ∧
      (c 0).val = sArb.rb.val + (c (-1)).val := ⟨by decide, rfl, by decide⟩

theorem witness_ArbOverflows :
    resolveValue sArb (imm big) = .ok (c big) ∧ ¬ InInt64 (sArb.rb.val + (c big).val) := ⟨rfl, by decide⟩

theorem witness_RelativeArbUsesTheOldRb :
    sArb.pc.toNat < sArb.memLen.val ∧ ((2 : Nat) : Int) = sArb.rb.val + (c 1).val ∧ 2 < sArb.memLen.val ∧
      (c 100).val = sArb.rb.val + (sArb.mem.get 2).val := by decide

theorem witness_HltChangesNothing : sHlt.pc.toNat < sHlt.memLen.val := by decide

theorem witness_HaltIsIdempotent : ∃ t, step sHlt = .next t ∧ t.rsp = some .halted := exists_next (by decide)

end Sys2Proof.Tests
end

section
/-! PROOF. The PC that a completed step leaves (R25, R121). -/

namespace Sys2Proof.Machine

open Sys2Proof.Safety

/-- A next PC that fits the register is committed exactly (R12, R25). -/
theorem committed_pc_toNat {eff : Effect} (s : State) (h : eff.nextPc < 18446744073709551616) :
    (s.committed eff).pc.toNat = eff.nextPc := by
  rw [State.committed_pc, BitVec.toNat_ofNat]
  exact Nat.mod_eq_of_lt h

/-- Of the answers of the IN handshake only the stored input completes the step, and it advances PC by 2. -/
theorem takeInput_pc_of_continued {ea : Nat} {s t : State} (h : takeInput ea s = .next t)
    (hc : t.rsp = some .continued) : t.pc.toNat = s.pc.toNat + 2 := by
  rcases takeInput_next h with ⟨-, rfl⟩ | ⟨v, rest, -, hpc, rfl⟩ | ⟨rest, -, rfl⟩
  · cases hc
  · exact committed_pc_toNat _ hpc
  · cases hc

/-- Of the answers of the OUT handshake only the acceptance completes the step, and it advances PC by 2. -/
theorem giveOutput_pc_of_continued {v : Cell} {s t : State} (h : giveOutput v s = .next t)
    (hc : t.rsp = some .continued) : t.pc.toNat = s.pc.toNat + 2 := by
  rcases giveOutput_next h with ⟨-, rfl⟩ | ⟨n, -, hpc, rfl⟩
  · cases hc
  · exact committed_pc_toNat _ hpc

/-- A completed instruction advances PC by at most its own length, or writes a jump target, which is an INT64 value. -/
theorem ExecResult.pc_of_continued {i : Instr} {s t : State} (h : ExecResult i s t) (hc : t.rsp = some .continued) :
    (∃ n, n ≤ i.opcode.length ∧ t.pc.toNat = s.pc.toNat + n) ∨ t.pc.toNat ≤ 9223372036854775807 := by
  cases h with
  | raised es e reads kind => cases hc
  | done es eff reads target noIo base pc halt fits =>
    rw [committed_pc_toNat _ fits]
    rcases pc with ⟨n, hpc, hn⟩ | hjump
    · exact .inl ⟨n, hn, hpc⟩
    · exact .inr hjump
  | input p ea isIn target t answer =>
    subst isIn
    exact .inl ⟨2, le_refl 2, takeInput_pc_of_continued (s := s.log _) answer hc⟩
  | output p v isOut value t answer =>
    subst isOut
    exact .inl ⟨2, le_refl 2, giveOutput_pc_of_continued (s := s.log _) answer hc⟩

theorem length_pos (op : Opcode) : 0 < op.length := by
  cases op <;> decide

/-- A new step that completes advances PC within the instruction it fetched, all of which lies in memory, or jumps. -/
theorem startStep_pc_of_continued {s t : State} (h : startStep s = .next t) (hc : t.rsp = some .continued) :
    (∃ n, n ≤ 4 ∧ s.pc.toNat < s.memLen.val ∧ s.pc.toNat + n ≤ s.memLen.val ∧ t.pc.toNat = s.pc.toNat + n) ∨
      t.pc.toNat ≤ 9223372036854775807 := by
  rcases startStep_next h with ⟨es, e, -, -, rfl⟩ | ⟨d, -, hlen, -, hx⟩
  · cases hc
  · rcases hx.pc_of_continued hc with ⟨n, hn, hpc⟩ | hjump
    · rw [opcode_assemble] at hn
      have hpos := length_pos d.op
      have hfour := length_le_four d.op
      exact .inl ⟨n, by omega, by omega, by omega, hpc⟩
    · exact .inr hjump

/-- A waiting step that completes advances PC by 2 from its place in memory. -/
theorem waiting_pc_of_continued {s t : State} (hw : WaitInv s) (hp : s.phase ≠ .idle) (h : step s = .next t)
    (hc : t.rsp = some .continued) : s.pc.toNat < s.memLen.val ∧ t.pc.toNat = s.pc.toNat + 2 := by
  unfold WaitInv at hw
  cases hs : s.phase with
  | idle => exact absurd hs hp
  | awaitIn ea =>
    rw [hs] at hw
    obtain ⟨hin, -⟩ := hw
    rw [step_awaitIn hs] at h
    exact ⟨hin, takeInput_pc_of_continued h hc⟩
  | awaitOut v =>
    rw [hs] at hw
    obtain ⟨hin, -⟩ := hw
    rw [step_awaitOut hs] at h
    exact ⟨hin, giveOutput_pc_of_continued h hc⟩

/-- Any completed step: the exact advance, which ends at most 1 past the largest MEM_LEN, or a jump. The 1 is the wait's
alone, which knows of its instruction's first cell only that it lies in memory. -/
theorem step_pc_of_continued {s t : State} (hw : WaitInv s) (h : step s = .next t) (hc : t.rsp = some .continued) :
    (∃ n, n ≤ 4 ∧ s.pc.toNat < s.memLen.val ∧ s.pc.toNat + n ≤ s.memLen.val + 1 ∧ t.pc.toNat = s.pc.toNat + n) ∨
      t.pc.toNat ≤ 9223372036854775807 := by
  by_cases hp : s.phase = .idle
  · rw [step_idle hp] at h
    rcases startStep_pc_of_continued h hc with ⟨n, hn, hin, hend, hpc⟩ | hjump
    · exact .inl ⟨n, hn, hin, by omega, hpc⟩
    · exact .inr hjump
  · obtain ⟨hin, hpc⟩ := waiting_pc_of_continued hw hp h hc
    exact .inl ⟨2, by decide, hin, by omega, hpc⟩

/-- The word fetch at a PC past the end of memory raises InvalidAddress and changes nothing else (R111). -/
theorem stepRaises_of_memLen_le_pc {s : State} (hp : s.phase = .idle) (h : s.memLen.val ≤ s.pc.toNat) :
    StepRaises s (.invalidAddress s.pc.toNat none) := by
  have hf : fetchCell 0 s.begin = (.error (.invalidAddress s.pc.toNat none), s.begin) := fetchCell_error h
  refine ⟨[], ?_⟩
  simp only [step_idle hp, startStep, fetchInstr, hf, raise_eq]
  rfl

/-- Between steps the host writes PC unchecked (R43). -/
theorem hostWritePc_idle {s : State} (pc : PcWord) (hp : s.phase = .idle) :
    hostWritePc pc s = .next { s with pc := pc } := by
  simp [hostWritePc, betweenSteps, hp]

/-- Settles O27. A new step's advance stays inside its fetched instruction, so ends at most at MEM_LEN; a wait's ends at
most at MEM_LEN + 1; a jump target is an INT64 value. MEM_LEN <= 2^63 gives the bound, and the error of a fetch beyond. -/
theorem pcNeverWraps : Obligations.PcNeverWraps := by
  unfold Obligations.PcNeverWraps
  refine ⟨fun s t hw h hc => ?_, fun s pc hp => ⟨hostWritePc_idle pc hp, fun hpc => ?_⟩⟩
  · have hmax := s.memLen.isLt
    rcases step_pc_of_continued hw h hc with ⟨n, hn, hin, hend, hpc⟩ | hjump
    · exact ⟨.inl ⟨n, hn, hin, hpc⟩, by omega⟩
    · exact ⟨.inr hjump, by omega⟩
  · have hmax := s.memLen.isLt
    exact stepRaises_of_memLen_le_pc (s := { s with pc := pc }) hp (by simp only; omega)

end Sys2Proof.Machine
end

section
/-! PROOF. The address translator: effective addresses and their bounds, and what a resolution answers at a valid and at
an invalid address (R57 to R59). -/

namespace Sys2Proof.Machine

@[simp] theorem effectiveAddr_position (s : State) (v : Cell) : effectiveAddr s ⟨v, .position⟩ = some v.val := rfl

@[simp] theorem effectiveAddr_relative (s : State) (v : Cell) :
    effectiveAddr s ⟨v, .relative⟩ = some (s.rb.val + v.val) := rfl

@[simp] theorem effectiveAddr_immediate (s : State) (v : Cell) : effectiveAddr s ⟨v, .immediate⟩ = none := rfl

/-- An effective address is a cell value or a sum of two, and each cell value lies in INT64. -/
theorem effectiveAddr_bounds {s : State} {p : Param} {a : Int} (h : effectiveAddr s p = some a) :
    -18446744073709551616 ≤ a ∧ a ≤ 18446744073709551614 := by
  obtain ⟨v, m⟩ := p
  have hv := v.inRange
  have hrb := s.rb.inRange
  cases m with
  | position =>
    obtain rfl : v.val = a := by simpa using h
    omega
  | relative =>
    obtain rfl : s.rb.val + v.val = a := by simpa using h
    omega
  | immediate => simp at h

/-- An address outside [0, MEM_LEN) is not valid (R51). -/
theorem not_validAddr_of_outside {s : State} {a : Int} (h : a < 0 ∨ (s.memLen.val : Int) ≤ a) : ¬ s.validAddr a := by
  rintro ⟨hlow, hhigh⟩
  omega

/-- Every cell index below MEM_LEN is a valid address (R51). -/
theorem validAddr_natCast {s : State} {n : Nat} (h : n < s.memLen.val) : s.validAddr n :=
  ⟨Int.natCast_nonneg n, Int.ofNat_lt.2 h⟩

theorem resolveValue_of_effectiveAddr_none {s : State} {p : Param} (h : effectiveAddr s p = none) :
    resolveValue s p = .ok p.v := by
  simp [resolveValue, h]

theorem resolveValue_of_validAddr {s : State} {p : Param} {a : Int} (h : effectiveAddr s p = some a)
    (ha : s.validAddr a) : resolveValue s p = .ok (s.mem.get a.toNat) := by
  simp only [resolveValue, h, if_pos ha]

theorem resolveValue_of_not_validAddr {s : State} {p : Param} {a : Int} (h : effectiveAddr s p = some a)
    (ha : ¬ s.validAddr a) : resolveValue s p = .error (.invalidAddress a (some p)) := by
  simp only [resolveValue, h, if_neg ha]

theorem resolveAddress_of_validAddr {s : State} {p : Param} {a : Int} (h : effectiveAddr s p = some a)
    (ha : s.validAddr a) : resolveAddress s p = .ok a.toNat := by
  simp only [resolveAddress, h, if_pos ha]

theorem resolveAddress_of_not_validAddr {s : State} {p : Param} {a : Int} (h : effectiveAddr s p = some a)
    (ha : ¬ s.validAddr a) : resolveAddress s p = .error (.invalidAddress a (some p)) := by
  simp only [resolveAddress, h, if_neg ha]

/-- Settles O14: each mode's address by the translator's equations, the bound from the ranges of `v` and RB. -/
theorem effectiveAddresses : Obligations.EffectiveAddresses := by
  unfold Obligations.EffectiveAddresses
  exact fun s v => ⟨effectiveAddr_position s v, effectiveAddr_relative s v, effectiveAddr_immediate s v,
    fun _ _ h => effectiveAddr_bounds h⟩

/-- Settles O15: Immediate mode has no effective address to check; otherwise the check of R51 decides. -/
theorem valueResolution : Obligations.ValueResolution := by
  unfold Obligations.ValueResolution
  refine fun s p => ⟨fun hm => ?_, fun a h => ⟨fun hout => ?_, fun n hn hin => ?_⟩⟩
  · obtain ⟨v, m⟩ := p
    obtain rfl : m = .immediate := hm
    exact resolveValue_of_effectiveAddr_none (effectiveAddr_immediate s v)
  · exact resolveValue_of_not_validAddr h (not_validAddr_of_outside hout)
  · subst hn
    exact resolveValue_of_validAddr h (validAddr_natCast hin)

/-- Settles O16: the check of R51 decides between the error and the cell. -/
theorem addressResolution : Obligations.AddressResolution := by
  unfold Obligations.AddressResolution
  refine fun s p a h => ⟨fun hout => ?_, fun n hn hin => ?_⟩
  · exact resolveAddress_of_not_validAddr h (not_validAddr_of_outside hout)
  · subst hn
    exact resolveAddress_of_validAddr h (validAddr_natCast hin)

end Sys2Proof.Machine
end

section
/-! PROOF. The encodings of an instruction: its length, and the words that decode to it (R81, R94, R96, R99). -/

namespace Sys2Proof

/-- An instruction has the operands of its opcode (R81). -/
theorem params_length (i : Instr) : i.params.length = i.opcode.arity := by
  cases i <;> rfl

theorem encode_length (i : Instr) : (encode i).length = 1 + i.opcode.arity := by
  simp [encode, params_length, Nat.add_comm]

/-- An absent operand has digit 0 in the canonical word (R96). -/
theorem mode_of_arity_lt {i : Instr} {k : Nat} (h : i.opcode.arity < k) : i.mode k = .position := by
  have habsent : i.params[k - 1]? = none := by
    rw [List.getElem?_eq_none_iff, params_length]
    omega
  simp [Instr.mode, habsent]

/-- Well-formedness read at one operand: an `out` operand is not Immediate (R88). -/
theorem mode_ne_immediate_of_write {i : Instr} {k : Nat} (hwf : i.wellFormed = true)
    (hk : i.opcode.kinds[k]? = some .write) : i.mode (k + 1) ≠ .immediate := by
  obtain ⟨hlt, -⟩ := List.getElem?_eq_some_iff.1 hk
  obtain ⟨p, hp⟩ : ∃ p, i.params[k]? = some p :=
    ⟨_, List.getElem?_eq_getElem ((params_length i).symm ▸ hlt)⟩
  have hmem : (p, OperandKind.write) ∈ i.params.zip i.opcode.kinds :=
    List.mem_of_getElem? (List.getElem?_zip_eq_some.2 ⟨hp, hk⟩)
  simpa [Param.allowedAs, Instr.mode, hp] using List.all_eq_true.1 hwf _ hmem

/-- The digit at an operand position: an operand's own digit decodes to its mode, and an absent one's digit may be any of 0,
1 and 2 (R87, R96). -/
theorem decodeMode_operand {i : Instr} {k d : Nat} (hwf : i.wellFormed = true) (hd : d ≤ 2)
    (hpresent : k + 1 ≤ i.opcode.arity → d = (i.mode (k + 1)).digit) :
    ∃ m, decodeMode i.opcode.kinds[k]? d = .ok m ∧ (k + 1 ≤ i.opcode.arity → m = i.mode (k + 1)) := by
  by_cases hk : k + 1 ≤ i.opcode.arity
  · rw [hpresent hk]
    exact ⟨_, decodeMode_digit (mode_ne_immediate_of_write hwf), fun _ => rfl⟩
  · have habsent : i.opcode.kinds[k]? = none := List.getElem?_eq_none (Nat.lt_succ_iff.1 (Nat.lt_of_not_le hk))
    obtain ⟨m, hm⟩ := decodeMode_ok_of_le (kind := i.opcode.kinds[k]?) hd (by simp [habsent])
    exact ⟨m, hm, fun h => absurd h hk⟩

/-- Operand assembly gives back the instruction whose opcode, modes and operand cells it is given (R94). -/
theorem assemble_eq {i : Instr} {m1 m2 m3 : Mode} {c : Nat → Cell}
    (h1 : 1 ≤ i.opcode.arity → m1 = i.mode 1) (h2 : 2 ≤ i.opcode.arity → m2 = i.mode 2)
    (h3 : 3 ≤ i.opcode.arity → m3 = i.mode 3)
    (hc : ∀ k p, i.params[k]? = some p → c (k + 1) = p.v) :
    (Decoded.mk i.opcode m1 m2 m3).assemble c = i := by
  have hp1 := hc 0
  have hp2 := hc 1
  have hp3 := hc 2
  cases i <;> simp_all [Decoded.assemble, Instr.opcode, Instr.mode, Instr.params, Opcode.arity, Opcode.kinds]

/-- A word that decodes to the instruction's opcode and modes, followed by its operand cells, decodes to it (R94). -/
theorem decode_params {i : Instr} {w : Cell} {m1 m2 m3 : Mode} (rest : List Cell)
    (hw : decodeWord w = .ok ⟨i.opcode, m1, m2, m3⟩)
    (h1 : 1 ≤ i.opcode.arity → m1 = i.mode 1) (h2 : 2 ≤ i.opcode.arity → m2 = i.mode 2)
    (h3 : 3 ≤ i.opcode.arity → m3 = i.mode 3) :
    decode (w :: i.params.map Param.v ++ rest) = .ok (i, rest) := by
  have hlen : (i.params.map Param.v).length = i.opcode.arity := by rw [List.length_map, params_length]
  have hcells : ∀ k p, i.params[k]? = some p →
      (i.params.map Param.v ++ rest).getD (k + 1 - 1) Config.unlistedCell = p.v := by
    intro k p hp
    obtain ⟨hlt, -⟩ := List.getElem?_eq_some_iff.1 hp
    have hcell : (i.params.map Param.v)[k]? = some p.v := by rw [List.getElem?_map, hp, Option.map_some]
    rw [Nat.add_sub_cancel, List.getD_eq_getElem?_getD, List.getElem?_append_left (by rwa [List.length_map]), hcell,
      Option.getD_some]
  have hlong : i.opcode.arity ≤ (i.params.map Param.v ++ rest).length := by
    rw [List.length_append, hlen]
    exact Nat.le_add_right _ _
  rw [List.cons_append, decode_cons_ok hw hlong, assemble_eq h1 h2 h3 hcells, List.drop_left' hlen]

/-- Settles O9: each digit decodes to its operand's mode or to a mode that no operand takes, and `decode_params` reads the
operands. -/
theorem encodingsOfAnInstruction : Obligations.EncodingsOfAnInstruction := by
  unfold Obligations.EncodingsOfAnInstruction
  refine fun i hwf => ⟨⟨_, rfl, rfl⟩, fun k => mode_of_arity_lt, ?_⟩
  intro w a b c h rest hw ha hb hc ha1 hb2 hc3
  obtain ⟨hop, hda, hdb, hdc⟩ := digits_of_layout (w := w.val.toNat) (by rw [hw, Int.toNat_natCast]) i.opcode.num_le
    (by omega : a ≤ 9) (by omega : b ≤ 9) (by omega : c ≤ 9)
  obtain ⟨m1, hm1, h1⟩ := decodeMode_operand (k := 0) hwf ha ha1
  obtain ⟨m2, hm2, h2⟩ := decodeMode_operand (k := 1) hwf hb hb2
  obtain ⟨m3, hm3, h3⟩ := decodeMode_operand (k := 2) hwf hc hc3
  have hword : decodeWord w = .ok ⟨i.opcode, m1, m2, m3⟩ := by
    rw [decodeWord_ok, hop, hda, hdb, hdc]
    exact ⟨by omega, opcodeOf_num _, hm1, hm2, hm3⟩
  exact decode_params rest hword h1 h2 h3

/-- Settles O6: each word of the table evaluated. -/
theorem sourceWordsDecode : Obligations.SourceWordsDecode := by
  unfold Obligations.SourceWordsDecode
  exact ⟨rfl, rfl, rfl, rfl, rfl, rfl, rfl, rfl, rfl, rfl, rfl, rfl, rfl⟩

/-- Settles O11: an encoding is the word and the opcode's operand cells. -/
theorem instructionLengths : Obligations.InstructionLengths := by
  unfold Obligations.InstructionLengths
  exact ⟨encode_length, rfl, rfl, rfl, rfl, rfl, rfl, rfl, rfl, rfl, rfl⟩

end Sys2Proof
end

section
/-! PROOF. The verdicts on a word: what each one says of the word's fields (R84 to R92). -/

namespace Sys2Proof

/-- The fields that the decoder reads are those of the word modulo 10^5 (R82, R89). -/
theorem fields_of_mod_eq {n n' : Nat} (h : n % 100000 = n' % 100000) :
    n % 100 = n' % 100 ∧ digit n 2 = digit n' 2 ∧ digit n 3 = digit n' 3 ∧ digit n 4 = digit n' 4 := by
  simp only [digit, Nat.reducePow]
  omega

/-- Words that agree modulo 10^5 have one verdict, but that InvalidOpcode reports each whole word (R89, R91). -/
theorem decodeWord_of_mod_eq {w w' : Cell} (h0 : 0 ≤ w.val) (h0' : 0 ≤ w'.val)
    (h : w.val % 100000 = w'.val % 100000) :
    decodeWord w = decodeWord w' ∨
      decodeWord w = .error (.invalidOpcode w) ∧ decodeWord w' = .error (.invalidOpcode w') := by
  obtain ⟨hop, h2, h3, h4⟩ := fields_of_mod_eq (n := w.val.toNat) (n' := w'.val.toNat) (by omega)
  cases hcase : opcodeOf (w'.val.toNat % 100) with
  | none => exact .inr ⟨decodeWord_invalidOpcode (.inr (hop ▸ hcase)), decodeWord_invalidOpcode (.inr hcase)⟩
  | some op =>
    have hneg : ¬ w.val < 0 := Int.not_lt.2 h0
    have hneg' : ¬ w'.val < 0 := Int.not_lt.2 h0'
    exact .inl (by simp [decodeWord, hneg, hneg', hop, hcase, h2, h3, h4])

/-- Settles O10: words that agree modulo 10^5 have one verdict unless both select no opcode. -/
theorem highDigitsAreIgnored : Obligations.HighDigitsAreIgnored := by
  unfold Obligations.HighDigitsAreIgnored
  refine ⟨fun w w' d h0 h0' h => ?_, rfl, rfl⟩
  rcases decodeWord_of_mod_eq h0 h0' h with heq | ⟨herr, herr'⟩
  · exact ⟨by rw [heq], fun n => by rw [heq]⟩
  · simp [herr, herr']

/-- The digits that R87 and R88 refuse, each reported as it stands. -/
theorem decodeMode_of_illegal {kind : Option OperandKind} {d : Nat} (h : ¬(d ≤ 2 ∧ ¬(kind = some .write ∧ d = 1))) :
    decodeMode kind d = .error (.invalidAddressingMode d) := by
  by_cases hd : d ≤ 2
  · obtain ⟨rfl, rfl⟩ : kind = some .write ∧ d = 1 := not_not.1 fun hlegal => h ⟨hd, hlegal⟩
    exact decodeMode_write_one
  · exact decodeMode_of_gt kind (Nat.lt_of_not_le hd)

/-- What the check of a digit can answer (R86 to R88). -/
theorem decodeMode_cases (kind : Option OperandKind) (d : Nat) :
    (∃ m, decodeMode kind d = .ok m) ∨ decodeMode kind d = .error (.invalidAddressingMode d) := by
  by_cases h : d ≤ 2 ∧ ¬(kind = some .write ∧ d = 1)
  · obtain ⟨hle, hwrite⟩ := h
    exact .inl (decodeMode_ok_of_le hle hwrite)
  · exact .inr (decodeMode_of_illegal h)

/-- A word that selects an opcode is accepted, or refused for one of its digits (R87, R88, R92). -/
theorem decodeWord_cases_of_opcode {w : Cell} {op : Opcode} (h0 : 0 ≤ w.val)
    (hop : opcodeOf (w.val.toNat % 100) = some op) :
    (∃ d, decodeWord w = .ok d) ∨ ∃ n, decodeWord w = .error (.invalidAddressingMode n) := by
  rcases decodeMode_cases op.kinds[0]? (digit w.val.toNat 2) with ⟨m1, h1⟩ | h1
  · rcases decodeMode_cases op.kinds[1]? (digit w.val.toNat 3) with ⟨m2, h2⟩ | h2
    · rcases decodeMode_cases op.kinds[2]? (digit w.val.toNat 4) with ⟨m3, h3⟩ | h3
      · exact .inl ⟨⟨op, m1, m2, m3⟩, decodeWord_ok.2 ⟨h0, hop, h1, h2, h3⟩⟩
      · exact .inr ⟨_, decodeWord_badMode h0 hop (.inr ⟨⟨m1, h1⟩, .inr ⟨⟨m2, h2⟩, h3⟩⟩)⟩
    · exact .inr ⟨_, decodeWord_badMode h0 hop (.inr ⟨⟨m1, h1⟩, .inl h2⟩)⟩
  · exact .inr ⟨_, decodeWord_badMode h0 hop (.inl h1)⟩

/-- No word but a negative one or one that selects no opcode is refused as InvalidOpcode (R84, R91). -/
theorem noOpcode_of_decodeWord_invalidOpcode {w raw : Cell} (h : decodeWord w = .error (.invalidOpcode raw)) :
    w.val < 0 ∨ opcodeOf (w.val.toNat % 100) = none := by
  rcases Int.lt_or_le w.val 0 with hneg | h0
  · exact .inl hneg
  · cases hop : opcodeOf (w.val.toNat % 100) with
    | none => exact .inr rfl
    | some op =>
      rcases decodeWord_cases_of_opcode h0 hop with ⟨d, hd⟩ | ⟨n, hn⟩
      · cases hd.symm.trans h
      · cases hn.symm.trans h

/-- The fields of R91 read on the whole word: negative, OP = 0, or OP in 10 to 98. -/
theorem noOpcode_iff (w : Cell) :
    w.val < 0 ∨ opcodeOf (w.val.toNat % 100) = none ↔
      w.val < 0 ∨ w.val % 100 = 0 ∨ (10 ≤ w.val % 100 ∧ w.val % 100 ≤ 98) := by
  rw [opcodeOf_eq_none (Nat.mod_lt _ (by decide))]
  omega

end Sys2Proof
end

section
/-! PROOF. The step at a word that the decoder refuses (R112). -/

namespace Sys2Proof.Machine

open Sys2Proof.Safety

/-- A refused word ends the step with the decoder's error, and nothing else changes (R112, R117). -/
theorem stepRaises_of_decodeWord_error {s : State} {w : Cell} {e : WordError} (hat : AtWord s w)
    (he : decodeWord w = .error e) : StepRaises s (decodeFailure s.pc e) := by
  obtain ⟨hidle, hin, rfl⟩ := hat
  have hfetch := fetchCell_ok (s := s.begin) (k := 0) hin
  have hword : decodeWord (s.begin.cellAtPc 0) = .error e := he
  refine ⟨[.memRead s.pc.toNat (s.mem.get s.pc.toNat)], ?_⟩
  simp only [step_idle hidle, startStep, fetchInstr, hfetch, hword, raise_eq]
  rfl

/-- A committed step ends with HALT or CONTINUE (R116). -/
theorem committed_rsp_ne_error (s : State) (eff : Effect) (e : StepError) :
    (s.committed eff).rsp ≠ some (.error e) := by
  cases hhalts : eff.halts <;> simp [Effect.result, hhalts]

/-- The errors that an instruction itself can end with (R115, R116, R118). -/
theorem ExecResult.error_kind {i : Instr} {s t : State} {e : StepError} (h : ExecResult i s t)
    (ht : t.rsp = some (.error e)) : ExecError e ∨ e = .inputUnavailable := by
  cases h with
  | raised es e' reads kind =>
    cases ht
    exact .inl kind
  | done es eff => exact absurd ht (committed_rsp_ne_error _ eff e)
  | input p ea isIn target t answer =>
    rcases takeInput_next answer with ⟨-, rfl⟩ | ⟨v, rest, -, -, rfl⟩ | ⟨rest, -, rfl⟩
    · cases ht
    · exact absurd ht (committed_rsp_ne_error _ _ e)
    · cases ht
      exact .inr rfl
  | output p v isOut value t answer =>
    rcases giveOutput_next answer with ⟨-, rfl⟩ | ⟨n, -, -, rfl⟩
    · cases ht
    · exact absurd ht (committed_rsp_ne_error _ _ e)

theorem ExecResult.ne_invalidOpcode {i : Instr} {s t : State} (h : ExecResult i s t) (pc : PcWord) (raw : Cell) :
    t.rsp ≠ some (.error (.invalidOpcode pc raw)) := by
  intro ht
  rcases h.error_kind ht with hexec | hinput
  · exact hexec.ne_invalidOpcode pc raw rfl
  · cases hinput

/-- A new step ends with InvalidOpcode only where the decoder gave it (R91, R202). -/
theorem decodeWord_of_startStep_invalidOpcode {s t : State} {pc : PcWord} {raw : Cell} (h : startStep s = .next t)
    (ht : t.rsp = some (.error (.invalidOpcode pc raw))) :
    decodeWord (s.cellAtPc 0) = .error (.invalidOpcode raw) := by
  rcases startStep_next h with ⟨es, e, -, he, rfl⟩ | ⟨d, -, -, -, hx⟩
  · obtain rfl : e = .invalidOpcode pc raw := by simpa using ht
    generalize hfail : StepError.invalidOpcode pc raw = f at he
    cases he with
    | past a => cases hfail
    | word e hword =>
      cases e with
      | invalidOpcode raw' =>
        cases hfail
        exact hword
      | invalidAddressingMode n => cases hfail
  · exact absurd ht (hx.ne_invalidOpcode pc raw)

/-- Settles O12: the decoder refuses exactly these words as InvalidOpcode, and no later phase raises it. -/
theorem invalidOpcodes : Obligations.InvalidOpcodes := by
  unfold Obligations.InvalidOpcodes
  refine fun s w hat => ⟨fun hw => ?_, fun hw t pc raw h ht => ?_⟩
  · exact stepRaises_of_decodeWord_error hat (decodeWord_invalidOpcode ((noOpcode_iff w).2 hw))
  · obtain ⟨hidle, -, rfl⟩ := hat
    rw [step_idle hidle] at h
    exact hw ((noOpcode_iff _).1 (noOpcode_of_decodeWord_invalidOpcode (decodeWord_of_startStep_invalidOpcode h ht)))

/-- Settles O13: the digits before the illegal one decode, so the decoder's first refusal is that digit's. -/
theorem illegalModeDigits : Obligations.IllegalModeDigits := by
  unfold Obligations.IllegalModeDigits
  intro s w op k hat h0 hop hk1 hk3 hbad hbefore
  have hillegal : decodeMode op.kinds[k - 1]? (digit w.val.toNat (k + 1)) = .error (.invalidAddressingMode _) :=
    decodeMode_of_illegal hbad
  have hlegal : ∀ j, 1 ≤ j → j < k → ∃ m, decodeMode op.kinds[j - 1]? (digit w.val.toNat (j + 1)) = .ok m := by
    intro j hj1 hjk
    obtain ⟨hle, hwrite⟩ := hbefore j hj1 hjk
    exact decodeMode_ok_of_le hle hwrite
  refine stepRaises_of_decodeWord_error (e := .invalidAddressingMode _) hat (decodeWord_badMode h0 hop ?_)
  obtain rfl | rfl | rfl : k = 1 ∨ k = 2 ∨ k = 3 := by omega
  · exact .inl hillegal
  · exact .inr ⟨hlegal 1 (by decide) (by decide), .inl hillegal⟩
  · exact .inr ⟨hlegal 1 (by decide) (by decide), .inr ⟨hlegal 2 (by decide) (by decide), hillegal⟩⟩

end Sys2Proof.Machine
end

section
/-! PROOF. The MEM transactions of a step begin with the read of the instruction word (R111, R250). -/

namespace Sys2Proof.Machine

open Sys2Proof.Safety

/-- The IN handshake only adds to the port record. -/
theorem takeInput_events {ea : Nat} {s t : State} (h : takeInput ea s = .next t) :
    ∃ es, t.events = s.events ++ es := by
  rcases takeInput_next h with ⟨-, rfl⟩ | ⟨v, rest, -, -, rfl⟩ | ⟨rest, -, rfl⟩
  · exact ⟨[], by simp⟩
  · exact ⟨[.inOk v, .memWrite ea v], by simp⟩
  · exact ⟨[.inFail], by simp⟩

/-- The OUT handshake only adds to the port record. -/
theorem giveOutput_events {v : Cell} {s t : State} (h : giveOutput v s = .next t) :
    ∃ es, t.events = s.events ++ es := by
  rcases giveOutput_next h with ⟨-, rfl⟩ | ⟨n, -, -, rfl⟩
  · exact ⟨[], by simp⟩
  · exact ⟨[.outAck], by simp⟩

/-- However an instruction ends, it only adds to the port record. -/
theorem ExecResult.events_append {i : Instr} {s t : State} (h : ExecResult i s t) :
    ∃ es, t.events = s.events ++ es := by
  cases h with
  | raised es e => exact ⟨es, by simp⟩
  | done es eff => exact ⟨es ++ eff.writeEvents, by simp⟩
  | input p ea isIn target t answer =>
    obtain ⟨es, hes⟩ := takeInput_events answer
    exact ⟨.inReq :: es, by simpa using hes⟩
  | output p v isOut value t answer =>
    obtain ⟨es, hes⟩ := giveOutput_events answer
    exact ⟨resolutionReads s p ++ .outValid v :: es, by simpa using hes⟩

/-- With PC in memory the fetch reads the cell at PC first, whatever it answers and reads after that (R111). -/
theorem fetchInstr_first_read {s : State} (h : s.pc.toNat < s.memLen.val) :
    ∃ r es, fetchInstr s = (r, s.log (.memRead s.pc.toNat (s.mem.get s.pc.toNat) :: es)) := by
  have hfetch : fetchCell 0 s = (.ok (), s.log [.memRead s.pc.toNat (s.mem.get s.pc.toNat)]) := fetchCell_ok h
  cases hd : decodeWord (s.cellAtPc 0) with
  | error e =>
    simp only [fetchInstr, hfetch, hd]
    exact ⟨_, [], rfl⟩
  | ok d =>
    obtain ⟨m, -, -, ⟨-, hrest⟩ | ⟨a, hrest⟩⟩ :=
      fetchCells_cases d.op.arity 1 (s.log [.memRead s.pc.toNat (s.mem.get s.pc.toNat)])
    all_goals
      simp only [fetchInstr, hfetch, hd, hrest, State.log_log, List.singleton_append]
      exact ⟨_, _, rfl⟩

/-- A new step with PC in memory records the read of the cell at PC first, however it ends (R111). -/
theorem startStep_events_head {s t : State} (hin : s.pc.toNat < s.memLen.val) (h : startStep s = .next t) :
    t.events.head? = some (.memRead s.pc.toNat (s.mem.get s.pc.toNat)) := by
  obtain ⟨r, es, hf⟩ := fetchInstr_first_read (s := s.begin) hin
  cases r with
  | error e =>
    obtain rfl : (s.begin.log _).respond (.error e) = t := by simpa [startStep, hf] using h
    rfl
  | ok i =>
    simp only [startStep, hf] at h
    obtain ⟨fs, hfs⟩ := (exec_next h).events_append
    rw [hfs]
    rfl

/-- Settles O22: past memory the fetch's check fails before any access; in memory the fetch records its read first, and
every later phase only adds to the record. -/
theorem wordFetch : Obligations.WordFetch := by
  unfold Obligations.WordFetch
  refine fun s hidle => ⟨stepRaises_of_memLen_le_pc hidle, fun hin t h => ?_⟩
  rw [step_idle hidle] at h
  exact startStep_events_head hin h

end Sys2Proof.Machine
end

section
/-! PROOF. The next PC of each instruction where it completes (R121). -/

namespace Sys2Proof.Machine

/-- HLT alone ends a step with HALT (R190). -/
theorem ExecResult.eq_hlt_of_halted {i : Instr} {s t : State} (h : ExecResult i s t) (ht : t.rsp = some .halted) :
    i = .hlt := by
  cases h with
  | raised es e => cases ht
  | done es eff reads target noIo base pc halt =>
    cases hhalts : eff.halts with
    | true => exact (halt hhalts).1
    | false => simp [Effect.result, hhalts] at ht
  | input p ea isIn target t answer =>
    rcases takeInput_next answer with ⟨-, rfl⟩ | ⟨v, rest, -, -, rfl⟩ | ⟨rest, -, rfl⟩ <;> cases ht
  | output p v isOut value t answer =>
    rcases giveOutput_next answer with ⟨-, rfl⟩ | ⟨n, -, -, rfl⟩ <;> cases ht

/-- An instruction other than HLT that completes ends with CONTINUE (R116). -/
theorem rsp_continued_of_ne_hlt {i : Instr} {s t : State} (hi : i ≠ .hlt) (h : exec i s = .next t)
    (hc : t.rsp = some .continued ∨ t.rsp = some .halted) : t.rsp = some .continued :=
  hc.resolve_right fun ht => hi ((exec_next h).eq_hlt_of_halted ht)

/-- Shape F3 completes at PC + 4. -/
theorem storeResult_pc_of_continued {f : Cell → Cell → Except StepError Cell} {p1 p2 p3 : Param} {s t : State}
    (h : storeResult f p1 p2 p3 s = .next t) (hc : t.rsp = some .continued) : t.pc.toNat = s.pc.toNat + 4 := by
  rcases storeResult_next h with ⟨es, e, -, rfl, -⟩ | ⟨a, b, ea, r, -, -, -, -, hpc, rfl⟩
  · cases hc
  · exact committed_pc_toNat _ hpc

/-- Shape F2 completes at its target's value where the condition holds, and at PC + 3 where it does not. -/
theorem jumpWhen_pc_of_continued {cond : Cell → Bool} {p1 p2 : Param} {s t : State}
    (h : jumpWhen cond p1 p2 s = .next t) (hc : t.rsp = some .continued) :
    ∃ c v, resolveValue s p1 = .ok c ∧ resolveValue s p2 = .ok v ∧
      (cond c = true → (t.pc.toNat : Int) = v.val) ∧ (cond c = false → t.pc.toNat = s.pc.toNat + 3) := by
  rcases jumpWhen_next h with ⟨es, e, -, rfl, -⟩ | ⟨c, v, n, hc1, hv, hn, hpc, rfl⟩
  · cases hc
  · refine ⟨c, v, hc1, hv, ?_⟩
    rw [committed_pc_toNat _ hpc]
    rcases jumpNext_ok hn with ⟨htaken, hv0, rfl⟩ | ⟨huntaken, rfl⟩
    · exact ⟨fun _ => Int.toNat_of_nonneg hv0, by simp [htaken]⟩
    · exact ⟨by simp [huntaken], fun _ => rfl⟩

theorem exec_inp_pc_of_continued {p : Param} {s t : State} (h : exec (.inp p) s = .next t)
    (hc : t.rsp = some .continued) : t.pc.toNat = s.pc.toNat + 2 := by
  rw [exec_inp] at h
  rcases withTarget_next h with ⟨e, -, rfl⟩ | ⟨ea, -, h⟩
  · cases hc
  · exact takeInput_pc_of_continued (s := s.log _) h hc

theorem exec_out_pc_of_continued {p : Param} {s t : State} (h : exec (.out p) s = .next t)
    (hc : t.rsp = some .continued) : t.pc.toNat = s.pc.toNat + 2 := by
  rw [exec_out] at h
  rcases withValue_next h with ⟨e, -, rfl⟩ | ⟨v, -, h⟩
  · cases hc
  · exact giveOutput_pc_of_continued (s := (s.log _).log _) h hc

theorem exec_arb_pc_of_continued {p : Param} {s t : State} (h : exec (.arb p) s = .next t)
    (hc : t.rsp = some .continued) : t.pc.toNat = s.pc.toNat + 2 := by
  rw [exec_arb] at h
  rcases withValue_next h with ⟨e, -, rfl⟩ | ⟨v, -, h⟩
  · cases hc
  rcases orRaise_next h with ⟨e, -, rfl⟩ | ⟨b, -, h⟩
  · cases hc
  · obtain ⟨hpc, rfl⟩ := commit_next h
    exact committed_pc_toNat _ hpc

theorem exec_hlt_pc {s t : State} (h : exec .hlt s = .next t) : t.pc = s.pc := by
  rw [exec_hlt] at h
  obtain ⟨hpc, rfl⟩ := commit_next h
  exact BitVec.eq_of_toNat_eq (committed_pc_toNat _ hpc)

@[simp] theorem isZero_eq_true {c : Cell} : isZero c = true ↔ c.val = 0 := decide_eq_true_iff

@[simp] theorem isZero_eq_false {c : Cell} : isZero c = false ↔ c.val ≠ 0 := decide_eq_false_iff_not

/-- Settles O28, one case for each row of the table and one for each wait. -/
theorem nextPcTable : Obligations.NextPcTable := by
  unfold Obligations.NextPcTable
  refine ⟨fun i s t _ h hc => ?_, fun s t _ hwait h hc => ?_⟩
  · have hcont : i ≠ .hlt → t.rsp = some .continued := fun hi => rsp_continued_of_ne_hlt hi h hc
    cases i with
    | add p1 p2 p3 => exact storeResult_pc_of_continued h (hcont nofun)
    | mul p1 p2 p3 => exact storeResult_pc_of_continued h (hcont nofun)
    | lt p1 p2 p3 => exact storeResult_pc_of_continued h (hcont nofun)
    | eq p1 p2 p3 => exact storeResult_pc_of_continued h (hcont nofun)
    | inp p => exact exec_inp_pc_of_continued h (hcont nofun)
    | out p => exact exec_out_pc_of_continued h (hcont nofun)
    | arb p => exact exec_arb_pc_of_continued h (hcont nofun)
    | jt p1 p2 => simpa using jumpWhen_pc_of_continued h (hcont nofun)
    | jf p1 p2 => simpa using jumpWhen_pc_of_continued h (hcont nofun)
    | hlt => exact exec_hlt_pc h
  · cases hp : s.phase with
    | idle => exact absurd hp hwait
    | awaitIn ea => exact takeInput_pc_of_continued (step_awaitIn hp ▸ h) hc
    | awaitOut v => exact giveOutput_pc_of_continued (step_awaitOut hp ▸ h) hc

end Sys2Proof.Machine
end

section
/-! PROOF. What a new step does not depend on: the outputs recorded before it, and the response and the port record of the
step before (R31, R44, R125). -/

namespace Sys2Proof.Machine

/-- The state as it would be if the host had accepted `os` before all that it has accepted. -/
def State.afterOutputs (os : List Cell) (s : State) : State := { s with outputs := os ++ s.outputs }

/-- Every update of a step appends to the outputs or keeps them, so earlier outputs go past it. -/
theorem blind_afterOutputs (os : List Cell) : Blind (State.afterOutputs os) where
  log _ _ := rfl
  respond _ _ := rfl
  wait _ _ := rfl
  answered _ _ := rfl
  accepted s v n := by simp [State.afterOutputs, State.accepted]
  committed _ _ _ := rfl
  pc _ := rfl
  inAnswers _ := rfl
  outAcks _ := rfl

theorem blindTo_afterOutputs (os : List Cell) (p : Param) : BlindTo (State.afterOutputs os) p :=
  fun _ => ⟨rfl, rfl, rfl⟩

theorem exec_afterOutputs (os : List Cell) (i : Instr) (s : State) :
    exec i (s.afterOutputs os) = mapNext (State.afterOutputs os) (exec i s) :=
  exec_blind (blind_afterOutputs os) (fun p _ => blindTo_afterOutputs os p) (fun _ _ _ _ => ⟨rfl, rfl⟩) s

theorem fetchCell_afterOutputs (os : List Cell) (k : Nat) (s : State) :
    fetchCell k (s.afterOutputs os) = (fetchCell k s).map id (State.afterOutputs os) := by
  by_cases h : s.pc.toNat + k < s.memLen.val
  · rw [fetchCell_ok h, fetchCell_ok (s := s.afterOutputs os) h]
    rfl
  · rw [fetchCell_error (Nat.not_lt.1 h), fetchCell_error (s := s.afterOutputs os) (Nat.not_lt.1 h)]
    rfl

theorem fetchCells_afterOutputs (os : List Cell) (n k : Nat) (s : State) :
    fetchCells n k (s.afterOutputs os) = (fetchCells n k s).map id (State.afterOutputs os) := by
  induction n generalizing k s with
  | zero => rfl
  | succ n ih =>
    rw [fetchCells, fetchCells, fetchCell_afterOutputs]
    obtain ⟨⟨e⟩ | ⟨⟩, s1⟩ := fetchCell k s
    · rfl
    · exact ih (k + 1) s1

theorem fetchInstr_afterOutputs (os : List Cell) (s : State) :
    fetchInstr (s.afterOutputs os) = (fetchInstr s).map id (State.afterOutputs os) := by
  have hcell : (s.afterOutputs os).cellAtPc = s.cellAtPc := rfl
  rw [fetchInstr, fetchInstr, fetchCell_afterOutputs, hcell]
  obtain ⟨⟨e⟩ | ⟨⟩, s1⟩ := fetchCell 0 s
  · rfl
  · cases decodeWord (s.cellAtPc 0) with
    | error e => rfl
    | ok d =>
      simp only [Prod.map, id, fetchCells_afterOutputs]
      obtain ⟨⟨e⟩ | ⟨⟩, s2⟩ := fetchCells d.op.arity 1 s1 <;> rfl

/-- A new step does the same after other outputs. -/
theorem startStep_afterOutputs (os : List Cell) (s : State) :
    startStep (s.afterOutputs os) = mapNext (State.afterOutputs os) (startStep s) := by
  have hbegin : (s.afterOutputs os).begin = s.begin.afterOutputs os := rfl
  rw [startStep, startStep, hbegin, fetchInstr_afterOutputs]
  obtain ⟨e | i, s1⟩ := fetchInstr s.begin
  · rfl
  · exact exec_afterOutputs os i s1

/-- A new step of `s'` is that of a state that agrees with it and has no outputs recorded, after the outputs of `s'`: the
response and the port record of `s'` are dropped as the step begins. -/
theorem startStep_of_agree {s s' : State} (hphase : s'.phase = s.phase) (hmem : s'.mem = s.mem)
    (hmemLen : s'.memLen = s.memLen) (hpc : s'.pc = s.pc) (hrb : s'.rb = s.rb) (hin : s'.inAnswers = s.inAnswers)
    (hacks : s'.outAcks = s.outAcks) :
    startStep s' = mapNext (State.afterOutputs s'.outputs) (startStep { s with outputs := [] }) := by
  rw [← startStep_afterOutputs]
  refine startStep_congr ?_
  simp [State.begin, State.afterOutputs, *]

/-- Settles O34: both states step as the one state without outputs does, each after its own outputs. -/
theorem stepDependsOnTheTripleAndTheHost : Obligations.StepDependsOnTheTripleAndTheHost := by
  unfold Obligations.StepDependsOnTheTripleAndTheHost
  intro s s' t hidle hidle' hmem hmemLen hpc hrb hin hacks h
  obtain ⟨u, hu⟩ := startStep_answers { s with outputs := [] }
  have hs := startStep_of_agree (s := s) (s' := s) rfl rfl rfl rfl rfl rfl rfl
  have hs' := startStep_of_agree (hidle'.trans hidle.symm) hmem hmemLen hpc hrb hin hacks
  rw [hu, mapNext_next] at hs hs'
  obtain rfl : u.afterOutputs s.outputs = t := by simpa [step_idle hidle, hs] using h
  exact ⟨u.afterOutputs s'.outputs, u.outputs, (step_idle hidle').trans hs', rfl, rfl, rfl⟩

end Sys2Proof.Machine
end

section
/-! PROOF. The targets of a taken jump (R122). -/

namespace Sys2Proof.Machine

open Sys2Proof.Safety

theorem jumpNext_taken_negative {v : Cell} (p2 : Param) (s : State) (h : v.val < 0) :
    jumpNext true v p2 s = .error (.invalidAddress v.val (some p2)) := by
  simp [jumpNext, h]

theorem jumpNext_taken_nonneg {v : Cell} (p2 : Param) (s : State) (h : 0 ≤ v.val) :
    jumpNext true v p2 s = .ok v.val.toNat := by
  simp [jumpNext, Int.not_lt.2 h]

section

variable {cond : Cell → Bool} {p1 p2 : Param} {s : State} {c v : Cell}

/-- Shape F2, taken to a negative target. -/
theorem jumpWhen_taken_negative (hc : resolveValue s p1 = .ok c) (hv : resolveValue s p2 = .ok v)
    (htaken : cond c = true) (hneg : v.val < 0) :
    jumpWhen cond p1 p2 s = .next { s with
      rsp := some (.error (.invalidAddress v.val (some p2))), phase := .idle,
      events := s.events ++ resolutionReads s p1 ++ resolutionReads s p2 } := by
  rw [jumpWhen_error3 hc hv (htaken ▸ jumpNext_taken_negative p2 s hneg)]
  simp [State.log, State.respond]

/-- Shape F2, taken to a target that is not negative: it is committed whatever MEM_LEN is, and the next step's fetch makes
the check. -/
theorem jumpWhen_taken_nonneg (hc : resolveValue s p1 = .ok c) (hv : resolveValue s p2 = .ok v)
    (htaken : cond c = true) (hpos : 0 ≤ v.val) :
    ∃ t, jumpWhen cond p1 p2 s = .next t ∧ t.rsp = some .continued ∧ (t.pc.toNat : Int) = v.val ∧
      ((s.memLen.val : Int) ≤ v.val → StepRaises t (.invalidAddress v.val none)) := by
  have hmax := v.inRange.2
  have hfits : v.val.toNat < 18446744073709551616 := by omega
  have hcast : (v.val.toNat : Int) = v.val := Int.toNat_of_nonneg hpos
  have hpc : ∀ u : State, (u.committed { nextPc := v.val.toNat }).pc.toNat = v.val.toNat :=
    fun u => committed_pc_toNat u hfits
  refine ⟨_, jumpWhen_ok hc hv (htaken ▸ jumpNext_taken_nonneg p2 s hpos) hfits, rfl, by rw [hpc, hcast], fun hout => ?_⟩
  have hraise := stepRaises_of_memLen_le_pc
    (s := (s.log (resolutionReads s p1 ++ resolutionReads s p2)).committed { nextPc := v.val.toNat }) rfl
    (by rw [hpc]; exact Int.ofNat_le.1 (hcast ▸ hout))
  rwa [hpc, hcast] at hraise

end

/-- Settles O53: JT is taken on a condition that is not zero, JF on zero, and the taken jump is the shape's. -/
theorem takenJumpTargets : Obligations.TakenJumpTargets := by
  unfold Obligations.TakenJumpTargets
  refine fun s p1 p2 c v hc hv => ⟨fun hneg => ⟨fun hjt => ?_, fun hjf => ?_⟩, fun hpos => ⟨fun hjt => ?_, fun hjf => ?_⟩⟩
  · exact jumpWhen_taken_negative hc hv (by simpa using hjt) hneg
  · exact jumpWhen_taken_negative hc hv (by simpa using hjf) hneg
  · exact jumpWhen_taken_nonneg hc hv (by simpa using hjt) hpos
  · exact jumpWhen_taken_nonneg hc hv (by simpa using hjf) hpos

end Sys2Proof.Machine
end

section
/-! PROOF. The ALU of ADD and MUL: exact results, operands swapped, and the overflow that writes nothing (R142). -/

namespace Sys2Proof.Machine

theorem aluAdd_ok {a b r : Cell} : aluAdd a b = .ok r ↔ r.val = a.val + b.val := checked_ok

theorem aluMul_ok {a b r : Cell} : aluMul a b = .ok r ↔ r.val = a.val * b.val := checked_ok

theorem aluAdd_ok_swap {a b r : Cell} : aluAdd a b = .ok r ↔ aluAdd b a = .ok r := by
  rw [aluAdd_ok, aluAdd_ok, Int.add_comm]

theorem aluMul_ok_swap {a b r : Cell} : aluMul a b = .ok r ↔ aluMul b a = .ok r := by
  rw [aluMul_ok, aluMul_ok, Int.mul_comm]

theorem aluAdd_overflow {a b : Cell} (h : ¬ InInt64 (a.val + b.val)) :
    aluAdd a b = .error (.arithmeticOverflow .add a b) := checked_error.2 ⟨h, rfl⟩

theorem aluMul_overflow {a b : Cell} (h : ¬ InInt64 (a.val * b.val)) :
    aluMul a b = .error (.arithmeticOverflow .mul a b) := checked_error.2 ⟨h, rfl⟩

/-- Shape F3 where the ALU's check fails, field by field: the response, the phase and the two operands' reads are all that
changes. -/
theorem storeResult_overflow_fields {f : Cell → Cell → Except StepError Cell} {p1 p2 p3 : Param} {s : State} {a b : Cell}
    {ea : Nat} {e : StepError} (h1 : resolveValue s p1 = .ok a) (h2 : resolveValue s p2 = .ok b)
    (h3 : resolveAddress s p3 = .ok ea) (h4 : f a b = .error e) :
    storeResult f p1 p2 p3 s = .next { s with
      rsp := some (.error e), phase := .idle,
      events := s.events ++ resolutionReads s p1 ++ resolutionReads s p2 } := by
  rw [storeResult_overflow h1 h2 h3 h4]
  simp [State.log, State.respond]

/-- Settles O40: the checked result is exact, so swapping the operands keeps it; outside INT64 the check fails, and shape
F3 ends before its write. -/
theorem arithmeticIsExactOrOverflows : Obligations.ArithmeticIsExactOrOverflows := by
  unfold Obligations.ArithmeticIsExactOrOverflows
  refine ⟨fun a b r => ⟨aluAdd_ok, aluMul_ok⟩, fun a b r => ⟨aluAdd_ok_swap, aluMul_ok_swap⟩, ?_⟩
  intro s p1 p2 p3 a b ea h1 h2 h3
  refine ⟨fun hadd => ?_, fun hmul => ?_⟩
  · rw [exec_add]
    exact storeResult_overflow_fields h1 h2 h3 (aluAdd_overflow hadd)
  · rw [exec_mul]
    exact storeResult_overflow_fields h1 h2 h3 (aluMul_overflow hmul)

end Sys2Proof.Machine
end

section
/-! PROOF. The host's answers on IN: which steps use one up, and what such a step does with it (R150, R151). -/

namespace Sys2Proof.Machine

/-! ### The handshakes -/

/-- The IN handshake uses up one answer at most: a value, which it stores, or a failure, which it raises (R150). -/
theorem takeInput_consumes {ea : Nat} {s t : State} (h : takeInput ea s = .next t) (hne : t.inAnswers ≠ s.inAnswers) :
    (∃ v, s.inAnswers = .ok v :: t.inAnswers ∧ t.rsp = some .continued ∧ t.mem = s.mem.put ea v) ∨
      (s.inAnswers = .fail :: t.inAnswers ∧ t.rsp = some (.error .inputUnavailable) ∧ t.mem = s.mem) := by
  rcases takeInput_next h with ⟨-, rfl⟩ | ⟨v, rest, ha, -, rfl⟩ | ⟨rest, ha, rfl⟩
  · exact absurd rfl hne
  · exact .inl ⟨v, ha, rfl, rfl⟩
  · exact .inr ⟨ha, rfl, rfl⟩

/-- The OUT handshake leaves the answers on IN as they are. -/
theorem giveOutput_inAnswers {v : Cell} {s t : State} (h : giveOutput v s = .next t) : t.inAnswers = s.inAnswers := by
  rcases giveOutput_next h with ⟨-, rfl⟩ | ⟨n, -, -, rfl⟩ <;> rfl

/-- The IN handshake has one error only (R150). -/
theorem takeInput_error {ea : Nat} {s t : State} {e : StepError} (h : takeInput ea s = .next t)
    (ht : t.rsp = some (.error e)) : e = .inputUnavailable := by
  rcases takeInput_next h with ⟨-, rfl⟩ | ⟨v, rest, -, -, rfl⟩ | ⟨rest, -, rfl⟩
  · cases ht
  · exact absurd ht (committed_rsp_ne_error _ _ e)
  · cases ht
    rfl

/-- The OUT handshake has no error (R152). -/
theorem giveOutput_rsp_ne_error {v : Cell} {s t : State} (h : giveOutput v s = .next t) (e : StepError) :
    t.rsp ≠ some (.error e) := by
  rcases giveOutput_next h with ⟨-, rfl⟩ | ⟨n, -, -, rfl⟩
  · nofun
  · exact committed_rsp_ne_error _ _ e

/-! ### One instruction -/

/-- Only IN uses up an answer, in its handshake for the cell that its operand resolves to (R118, R151). -/
theorem ExecResult.input_of_inAnswers_ne {i : Instr} {s t : State} (h : ExecResult i s t)
    (hne : t.inAnswers ≠ s.inAnswers) :
    ∃ p ea, i = .inp p ∧ resolveAddress s p = .ok ea ∧ takeInput ea (s.log [.inReq]) = .next t := by
  cases h with
  | raised es e => exact absurd rfl hne
  | done es eff => exact absurd rfl hne
  | input p ea isIn target t answer => exact ⟨p, ea, isIn, target, answer⟩
  | output p v isOut value t answer => exact absurd (giveOutput_inAnswers answer) hne

/-- An instruction that ends with any error but InputUnavailable ends before phase IO, with resolution reads as its only
transactions (R115 to R118). -/
theorem ExecResult.eq_respond_of_error {i : Instr} {s t : State} {e : StepError} (h : ExecResult i s t)
    (ht : t.rsp = some (.error e)) (he : e ≠ .inputUnavailable) :
    ∃ es, ResolvedReads s 2 es ∧ t = (s.log es).respond (.error e) := by
  cases h with
  | raised es e' reads =>
    cases ht
    exact ⟨es, reads, rfl⟩
  | done es eff => exact absurd ht (committed_rsp_ne_error _ eff e)
  | input p ea isIn target t answer => exact absurd (takeInput_error answer ht) he
  | output p v isOut value t answer => exact absurd ht (giveOutput_rsp_ne_error answer e)

/-! ### A new step -/

theorem assemble_inp {d : Decoded} (hop : d.op = .inp) (c : Nat → Cell) : d.assemble c = .inp ⟨c 1, d.m1⟩ := by
  simp [Decoded.assemble, hop]

/-- A decoded word gives an IN only under IN's opcode, with the cell after the word as its operand (R90, R94). -/
theorem op_and_param_of_assemble_inp {d : Decoded} {c : Nat → Cell} {p : Param} (h : d.assemble c = .inp p) :
    d.op = .inp ∧ p = ⟨c 1, d.m1⟩ := by
  have hop : d.op = .inp := by rw [← opcode_assemble d c, h]; rfl
  rw [assemble_inp hop] at h
  cases h
  exact ⟨hop, rfl⟩

/-- A new step that uses up an answer runs an IN, and comes to the handshake for its target (R151). -/
theorem startStep_input_of_inAnswers_ne {s t : State} (h : startStep s = .next t) (hne : t.inAnswers ≠ s.inAnswers) :
    ∃ d ea es, decodeWord (s.cellAtPc 0) = .ok d ∧ d.op = .inp ∧ resolveAddress s ⟨s.cellAtPc 1, d.m1⟩ = .ok ea ∧
      takeInput ea (s.begin.log es) = .next t := by
  rcases startStep_next h with ⟨es, e, -, -, rfl⟩ | ⟨d, hd, -, -, hx⟩
  · exact absurd rfl hne
  · obtain ⟨p, ea, hi, hea, ht⟩ := hx.input_of_inAnswers_ne hne
    obtain ⟨hop, rfl⟩ := op_and_param_of_assemble_inp hi
    exact ⟨d, ea, _, hd, hop, hea, State.log_log .. ▸ ht⟩

theorem inReq_not_mem_of_resolvedReads {s : State} {n : Nat} {es : List PortEvent} (h : ResolvedReads s n es) :
    PortEvent.inReq ∉ es := by
  intro hmem
  obtain ⟨a, -, ha⟩ := h.2 _ hmem
  cases ha

/-- A new step that ends with any error but InputUnavailable has only read memory (R117, R151). -/
theorem startStep_eq_respond_of_error {s t : State} {e : StepError} (h : startStep s = .next t)
    (ht : t.rsp = some (.error e)) (he : e ≠ .inputUnavailable) :
    ∃ n es, ResolvedReads s n es ∧ t = (s.begin.log es).respond (.error e) := by
  rcases startStep_next h with ⟨es, e', hr, -, rfl⟩ | ⟨d, -, hlen, -, hx⟩
  · cases ht
    exact ⟨4, es, hr, rfl⟩
  · obtain ⟨es, hr, rfl⟩ := hx.eq_respond_of_error ht he
    have hfetch : ResolvedReads s d.op.length (fetchReads s d.op.length 0) := fetchReads_resolved (.inr hlen)
    exact ⟨_, _, hfetch.append hr, by rw [State.log_log]⟩

/-- A new step is to begin, and at PC an IN lies in memory whole, whose operand resolves to cell `ea` (R59, R124). -/
def AtInput (s : State) (ea : Nat) : Prop :=
  s.phase = .idle ∧ s.pc.toNat + 2 ≤ s.memLen.val ∧
    ∃ d, decodeWord (s.cellAtPc 0) = .ok d ∧ d.op = .inp ∧ resolveAddress s ⟨s.cellAtPc 1, d.m1⟩ = .ok ea

/-- At an IN that lies in memory, with a target that resolves, the step comes to its handshake (R118, R124). -/
theorem AtInput.step_eq {s : State} {ea : Nat} (h : AtInput s ea) :
    step s = takeInput ea (s.begin.log (fetchReads s 2 0 ++ [.inReq])) := by
  obtain ⟨hidle, hlen, d, hd, hop, hea⟩ := h
  have hin : s.pc.toNat + d.op.length ≤ s.memLen.val := by rwa [hop]
  have htarget : resolveAddress (s.begin.log (fetchReads s d.op.length 0)) ⟨s.cellAtPc 1, d.m1⟩ = .ok ea := hea
  rw [step_idle hidle, startStep_ok hd hin, assemble_inp hop, exec_inp_ok htarget, State.log_log, hop]
  rfl

/-- The step that takes a value commits it (R150, R151). -/
theorem AtInput.step_ok {s : State} {ea : Nat} {v : Cell} {rest : List InAnswer} (h : AtInput s ea)
    (ha : s.inAnswers = .ok v :: rest) :
    ∃ t, step s = .next t ∧ t.rsp = some .continued ∧ t.mem = s.mem.put ea v ∧ t.pc.toNat = s.pc.toNat + 2 ∧
      t.inAnswers = rest := by
  obtain ⟨-, hlen, -⟩ := id h
  have hfits : s.pc.toNat + 2 < 18446744073709551616 := pc_add_fits (by omega) (by decide)
  exact ⟨_, h.step_eq.trans (takeInput_ok ha hfits), rfl, rfl, committed_pc_toNat _ hfits, rfl⟩

/-- The step that takes a failure changes nothing that an IN looks at, so the same IN can be issued again (R150, R151). -/
theorem AtInput.step_fail {s : State} {ea : Nat} {rest : List InAnswer} (h : AtInput s ea)
    (ha : s.inAnswers = .fail :: rest) :
    ∃ t, step s = .next t ∧ t.rsp = some (.error .inputUnavailable) ∧ t.mem = s.mem ∧ t.pc = s.pc ∧ t.rb = s.rb ∧
      t.inAnswers = rest ∧ AtInput t ea := by
  obtain ⟨-, hat⟩ := id h
  exact ⟨_, h.step_eq.trans (takeInput_fail ha), rfl, rfl, rfl, rfl, rfl, rfl, hat⟩

/-- Settles O44. Answers are used up in the IN handshake alone, any error but InputUnavailable comes before it, and a failed
IN leaves all that the step issued again looks at as it was. -/
theorem inputIsConsumedByACommit : Obligations.InputIsConsumedByACommit := by
  unfold Obligations.InputIsConsumedByACommit
  refine ⟨fun s t h hne => ?_, fun s t e hidle h ht he => ?_, ?_⟩
  · cases hp : s.phase with
    | idle =>
      rw [step_idle hp] at h
      obtain ⟨d, ea, es, hd, hop, hea, hin⟩ := startStep_input_of_inAnswers_ne h hne
      exact ⟨ea, .inr ⟨rfl, d, hd, hop, hea⟩, takeInput_consumes (s := s.begin.log es) hin hne⟩
    | awaitIn ea =>
      rw [step_awaitIn hp] at h
      exact ⟨ea, .inl rfl, takeInput_consumes h hne⟩
    | awaitOut v =>
      rw [step_awaitOut hp] at h
      exact absurd (giveOutput_inAnswers h) hne
  · rw [step_idle hidle] at h
    obtain ⟨n, es, hr, rfl⟩ := startStep_eq_respond_of_error h ht he
    exact ⟨inReq_not_mem_of_resolvedReads hr, rfl⟩
  · intro s w d ea v rest hat hd hop hlen hea ha
    obtain ⟨hidle, -, rfl⟩ := hat
    have hat : AtInput s ea := ⟨hidle, hlen, d, hd, hop, hea⟩
    obtain ⟨t, hfail, hrsp, hmem, hpc, hrb, hrest, hagain⟩ := hat.step_fail ha
    have hretry := hagain.step_ok hrest
    rw [hmem, hpc] at hretry
    obtain ⟨u, hu⟩ := hretry
    exact ⟨t, u, hfail, hrsp, hmem, hpc, hrb, hu⟩

end Sys2Proof.Machine
end

section
/-! PROOF. A jump resolves both its operands before its condition is tested (R162). -/

namespace Sys2Proof.Machine

section

variable {p1 p2 : Param} {s : State} {c : Cell} {e : StepError} (cond : Cell → Bool)

/-- Shape F2 raises the condition operand's error, whatever the condition is and whatever the target operand is. -/
theorem jumpWhen_raises_of_condition_error (hc : resolveValue s p1 = .error e) :
    ∃ t, jumpWhen cond p1 p2 s = .next t ∧ t.rsp = some (.error e) ∧ t.pc = s.pc :=
  ⟨_, jumpWhen_error1 hc, rfl, rfl⟩

/-- Shape F2 raises the target operand's error where the condition operand resolves, whether `cond` holds of it or not. -/
theorem jumpWhen_raises_of_target_error (hc : resolveValue s p1 = .ok c) (ht : resolveValue s p2 = .error e) :
    ∃ t, jumpWhen cond p1 p2 s = .next t ∧ t.rsp = some (.error e) ∧ t.pc = s.pc :=
  ⟨_, jumpWhen_error2 hc ht, rfl, rfl⟩

end

/-- Settles O18: JT and JF are shape F2 with opposite conditions, and neither error depends on the condition. -/
theorem untakenJumpResolvesItsTarget : Obligations.UntakenJumpResolvesItsTarget := by
  unfold Obligations.UntakenJumpResolvesItsTarget
  intro s p1 p2
  simp only [exec_jt, exec_jf]
  refine ⟨fun e hc => ?_, fun c a hc ha hout => ?_⟩
  · exact ⟨jumpWhen_raises_of_condition_error _ hc, jumpWhen_raises_of_condition_error _ hc⟩
  · have ht : resolveValue s p2 = .error (.invalidAddress a (some p2)) :=
      resolveValue_of_not_validAddr ha (not_validAddr_of_outside hout)
    exact ⟨jumpWhen_raises_of_target_error _ hc ht, jumpWhen_raises_of_target_error _ hc ht⟩

end Sys2Proof.Machine
end

section
/-! PROOF. A step that ends with HALT has run an HLT that stays in memory at an unchanged PC, so the next step runs it again
(R190, R191). -/

namespace Sys2Proof.Machine

/-- HLT does nothing but respond: the PC it commits is the register's own value, which always fits (R190). -/
theorem exec_hlt_eq_respond (s : State) : exec .hlt s = .next (s.respond .halted) := by
  rw [exec_hlt, commit_of_lt s s.pc.isLt]
  simp [State.committed, State.respond]

/-- The IN handshake never ends with HALT. -/
theorem takeInput_rsp_ne_halted {ea : Nat} {s t : State} (h : takeInput ea s = .next t) : t.rsp ≠ some .halted := by
  rcases takeInput_next h with ⟨-, rfl⟩ | ⟨v, rest, -, -, rfl⟩ | ⟨rest, -, rfl⟩ <;> nofun

/-- The OUT handshake never ends with HALT. -/
theorem giveOutput_rsp_ne_halted {v : Cell} {s t : State} (h : giveOutput v s = .next t) : t.rsp ≠ some .halted := by
  rcases giveOutput_next h with ⟨-, rfl⟩ | ⟨n, -, -, rfl⟩ <;> nofun

theorem assemble_hlt {d : Decoded} (hop : d.op = .hlt) (c : Nat → Cell) : d.assemble c = .hlt := by
  simp [Decoded.assemble, hop]

/-- A new step is to begin, and the cell at PC lies in memory and is an HLT word (R90, R111). -/
def AtHalt (s : State) : Prop :=
  s.phase = .idle ∧ s.pc.toNat < s.memLen.val ∧ ∃ d, decodeWord (s.cellAtPc 0) = .ok d ∧ d.op = .hlt

/-- At an HLT the step fetches its word and responds HALT (R124, R190). -/
theorem AtHalt.step_eq {s : State} (h : AtHalt s) :
    step s = .next ((s.begin.log (fetchReads s 1 0)).respond .halted) := by
  obtain ⟨hidle, hpc, d, hd, hop⟩ := h
  have hin : s.pc.toNat + d.op.length ≤ s.memLen.val := by rwa [hop]
  rw [step_idle hidle, startStep_ok hd hin, assemble_hlt hop, exec_hlt_eq_respond, hop]
  rfl

/-- Only a new step at an HLT ends with HALT: a waiting step never does, and nor does another instruction (R116, R190). -/
theorem atHalt_of_step_halted {s t : State} (h : step s = .next t) (ht : t.rsp = some .halted) : AtHalt s := by
  cases hp : s.phase with
  | idle =>
    rw [step_idle hp] at h
    rcases startStep_next h with ⟨es, e, -, -, rfl⟩ | ⟨d, hd, hlen, -, hx⟩
    · cases ht
    · have hop : d.op = .hlt := by rw [← opcode_assemble d s.cellAtPc, hx.eq_hlt_of_halted ht]; rfl
      have hpos := length_pos d.op
      exact ⟨hp, by omega, d, hd, hop⟩
  | awaitIn ea => exact absurd ht (takeInput_rsp_ne_halted (step_awaitIn hp ▸ h))
  | awaitOut v => exact absurd ht (giveOutput_rsp_ne_halted (step_awaitOut hp ▸ h))

/-- Settles O58. The step was at an HLT and changed only the response and the port record. The next step is at the same
HLT; it clears both and writes them again as they were. -/
theorem haltIsIdempotent : Obligations.HaltIsIdempotent := by
  unfold Obligations.HaltIsIdempotent
  intro s t h ht
  have hat : AtHalt s := atHalt_of_step_halted h ht
  obtain rfl : (s.begin.log (fetchReads s 1 0)).respond .halted = t := by simpa [hat.step_eq] using h
  obtain ⟨-, hin, hword⟩ := hat
  have hagain : AtHalt ((s.begin.log (fetchReads s 1 0)).respond .halted) := ⟨rfl, hin, hword⟩
  exact ⟨hagain.step_eq, rfl, rfl, rfl⟩

end Sys2Proof.Machine
end

section
/-! PROOF. The waits for the host: what a step on a waiting state does with and without an answer, and which instructions
start a wait (R118, R211, R224). -/

namespace Sys2Proof.Machine

section

variable {s : State} {ea : Nat} {v : Cell}

/-- A state that already waits with this handshake is not changed by waiting on (R224). -/
theorem State.wait_eq_self {ph : Phase} (hp : s.phase = ph) (hr : s.rsp = none) : s.wait ph = s := by
  rw [State.wait, ← hp, ← hr]

/-- The IN handshake answered with a value, field by field (R150, R151). -/
theorem takeInput_ok_fields {rest : List InAnswer} (hin : s.pc.toNat < s.memLen.val)
    (ha : s.inAnswers = .ok v :: rest) :
    ∃ pc : PcWord, pc.toNat = s.pc.toNat + 2 ∧
      takeInput ea s = .next { s with
        mem := s.mem.put ea v, pc := pc, rsp := some .continued, phase := .idle, inAnswers := rest,
        events := s.events ++ [.inOk v, .memWrite ea v] } := by
  have hfits : s.pc.toNat + 2 < 18446744073709551616 := pc_add_fits hin (by decide)
  refine ⟨_, committed_pc_toNat s (eff := { nextPc := s.pc.toNat + 2 }) hfits, ?_⟩
  rw [takeInput_ok ha hfits]
  simp [State.committed, State.log, State.answered]

/-- The IN handshake answered with a failure, field by field: only the answer is used up (R150, R211). -/
theorem takeInput_fail_fields {rest : List InAnswer} (ha : s.inAnswers = .fail :: rest) :
    takeInput ea s = .next { s with
      rsp := some (.error .inputUnavailable), phase := .idle, inAnswers := rest, events := s.events ++ [.inFail] } :=
  takeInput_fail ha

/-- The OUT handshake accepted, field by field (R152). -/
theorem giveOutput_ok_fields {n : Nat} (hin : s.pc.toNat < s.memLen.val) (ha : s.outAcks = n + 1) :
    ∃ pc : PcWord, pc.toNat = s.pc.toNat + 2 ∧
      giveOutput v s = .next { s with
        pc := pc, rsp := some .continued, phase := .idle, outAcks := n, outputs := s.outputs ++ [v],
        events := s.events ++ [.outAck] } := by
  have hfits : s.pc.toNat + 2 < 18446744073709551616 := pc_add_fits hin (by decide)
  refine ⟨_, committed_pc_toNat s (eff := { nextPc := s.pc.toNat + 2 }) hfits, ?_⟩
  rw [giveOutput_ok ha hfits]
  simp [State.committed, State.log, State.accepted]

end

/-- Only IN and OUT leave a step waiting: every other instruction ends with a response (R118, R224). -/
theorem ExecResult.isIo_of_phase_ne_idle {i : Instr} {s t : State} (h : ExecResult i s t) (ht : t.phase ≠ .idle) :
    (∃ p, i = .inp p) ∨ ∃ p, i = .out p := by
  cases h with
  | raised es e => exact absurd rfl ht
  | done es eff => exact absurd rfl ht
  | input p ea isIn => exact .inl ⟨p, isIn⟩
  | output p v isOut => exact .inr ⟨p, isOut⟩

/-- Settles O47. A step on a waiting state is its handshake looked at again: with no answer it waits on as it was, and each
answer ends it. -/
theorem waitsEndWithTheAnswer : Obligations.WaitsEndWithTheAnswer := by
  unfold Obligations.WaitsEndWithTheAnswer
  refine ⟨fun s ea hp hr ha => ?_, fun s v hp hr ha => ?_, fun s ea v rest hp hin ha => ?_,
    fun s v n hp hin ha => ?_, fun s ea rest hp ha => ?_,
    fun i s t _ h ht => (exec_next h).isIo_of_phase_ne_idle ht⟩
  · rw [step_awaitIn hp, takeInput_wait ha, State.wait_eq_self hp hr]
  · rw [step_awaitOut hp, giveOutput_wait ha, State.wait_eq_self hp hr]
  · rw [step_awaitIn hp]
    exact takeInput_ok_fields hin ha
  · rw [step_awaitOut hp]
    exact giveOutput_ok_fields hin ha
  · rw [step_awaitIn hp]
    exact ⟨_, takeInput_fail_fields ha, rfl, rfl, rfl, rfl⟩

/-- Settles O48: the failure ends the IN handshake, and the OUT handshake has no error at all. -/
theorem onlyAWaitingInCanBeCancelled : Obligations.OnlyAWaitingInCanBeCancelled := by
  unfold Obligations.OnlyAWaitingInCanBeCancelled
  refine ⟨fun s ea rest hp ha => ?_, fun s t v e hp h => ?_⟩
  · rw [step_awaitIn hp]
    exact takeInput_fail_fields ha
  · rw [step_awaitOut hp] at h
    exact giveOutput_rsp_ne_error h e

end Sys2Proof.Machine
end

section
/-! PROOF. A step that ends with an error changes nothing but the response, the port record and, for InputUnavailable, the
`in_fail` used up (R117, R205). -/

namespace Sys2Proof.Machine

/-- The IN handshake ends with an error only where the host's first answer is `in_fail`, which it uses up (R150). -/
theorem takeInput_eq_respond_of_error {ea : Nat} {s t : State} {e : StepError} (h : takeInput ea s = .next t)
    (ht : t.rsp = some (.error e)) :
    ∃ rest, s.inAnswers = .fail :: rest ∧
      t = ((s.answered rest).log [.inFail]).respond (.error .inputUnavailable) := by
  rcases takeInput_next h with ⟨-, rfl⟩ | ⟨v, rest, -, -, rfl⟩ | ⟨rest, ha, rfl⟩
  · cases ht
  · exact absurd ht (committed_rsp_ne_error _ _ e)
  · exact ⟨rest, ha, rfl⟩

/-- Only IN ends with InputUnavailable, in its handshake (R118, R150). -/
theorem ExecResult.takeInput_of_inputUnavailable {i : Instr} {s t : State} (h : ExecResult i s t)
    (ht : t.rsp = some (.error .inputUnavailable)) : ∃ ea, takeInput ea (s.log [.inReq]) = .next t := by
  cases h with
  | raised es e reads kind =>
    cases ht
    exact absurd rfl kind.ne_inputUnavailable
  | done es eff => exact absurd ht (committed_rsp_ne_error _ eff _)
  | input p ea isIn target t answer => exact ⟨ea, answer⟩
  | output p v isOut value t answer => exact absurd ht (giveOutput_rsp_ne_error answer _)

/-- A new step that ends with InputUnavailable has used ports and one `in_fail`, and changed nothing else (R117, R150). -/
theorem startStep_eq_respond_of_inputUnavailable {s t : State} (h : startStep s = .next t)
    (ht : t.rsp = some (.error .inputUnavailable)) :
    ∃ rest es, s.inAnswers = .fail :: rest ∧
      t = ((s.begin.answered rest).log es).respond (.error .inputUnavailable) := by
  rcases startStep_next h with ⟨es, e, -, he, rfl⟩ | ⟨d, -, -, -, hx⟩
  · cases ht
    exact absurd rfl he.ne_inputUnavailable
  · obtain ⟨ea, hin⟩ := hx.takeInput_of_inputUnavailable ht
    obtain ⟨rest, ha, rfl⟩ := takeInput_eq_respond_of_error hin ht
    exact ⟨rest, _, ha, rfl⟩

/-- Any step that ends with an error: what it leaves is the state before it, but for the response, the port record and the
`in_fail` behind an InputUnavailable (R117, R205). -/
theorem step_eq_respond_of_error {s t : State} {e : StepError} (h : step s = .next t)
    (ht : t.rsp = some (.error e)) :
    (e ≠ .inputUnavailable ∧ ∃ es, t = (s.begin.log es).respond (.error e)) ∨
      (e = .inputUnavailable ∧ ∃ rest es, s.inAnswers = .fail :: rest ∧
        t = ((s.begin.answered rest).log es).respond (.error e)) := by
  cases hp : s.phase with
  | idle =>
    rw [step_idle hp] at h
    by_cases he : e = .inputUnavailable
    · subst he
      exact .inr ⟨rfl, startStep_eq_respond_of_inputUnavailable h ht⟩
    · obtain ⟨n, es, -, rfl⟩ := startStep_eq_respond_of_error h ht he
      exact .inl ⟨he, es, rfl⟩
  | awaitIn ea =>
    rw [step_awaitIn hp] at h
    obtain rfl : e = .inputUnavailable := takeInput_error h ht
    obtain ⟨rest, ha, rfl⟩ := takeInput_eq_respond_of_error h ht
    exact .inr ⟨rfl, rest, s.events ++ [.inFail], ha, rfl⟩
  | awaitOut v =>
    rw [step_awaitOut hp] at h
    exact absurd ht (giveOutput_rsp_ne_error h e)

/-- Settles O24: read off field by field from what a step with an error leaves. -/
theorem errorsArePrecise : Obligations.ErrorsArePrecise := by
  unfold Obligations.ErrorsArePrecise
  intro s t e h ht
  rcases step_eq_respond_of_error h ht with ⟨he, es, rfl⟩ | ⟨he, rest, es, ha, rfl⟩
  · exact ⟨rfl, rfl, rfl, rfl, rfl, rfl, fun _ => rfl, fun he' => absurd he' he⟩
  · exact ⟨rfl, rfl, rfl, rfl, rfl, rfl, fun hne => absurd he hne, fun _ => ha⟩

end Sys2Proof.Machine
end

section
/-! PROOF. What reset leaves in memory and in the registers (R28, R29, R241, R242). -/

namespace Sys2Proof.Machine

section

variable {image : List Cell} {i : Nat}

/-- A cell within the image holds the image's value (R241). -/
theorem Memory.get_place_image {v : Cell} (h : image[i]? = some v) : Memory.get (Memory.place [] 0 image) i = v := by
  simp [Memory.get_place, h]

/-- A cell past the image reads as one that nothing has listed (R241). -/
theorem Memory.get_place_past_image (h : image.length ≤ i) :
    Memory.get (Memory.place [] 0 image) i = Config.unlistedCell := by
  simp [Memory.get_place, List.getElem?_eq_none h, Memory.get]

/-- An image that fits boots into `State.reset` with the image placed from cell 0 on (R240, R241). -/
theorem boot_of_fits {memLen : MemLen} (h : image.length ≤ memLen.val) :
    boot image memLen = .next { State.reset with mem := Memory.place [] 0 image, memLen := memLen } :=
  if_pos h

end

/-- Settles O1. The image is placed from cell 0 on into empty memory, and an unlisted cell reads as 0; all but memory and
MEM_LEN is as in `State.reset`. -/
theorem resetLoadsTheImage : Obligations.ResetLoadsTheImage := by
  unfold Obligations.ResetLoadsTheImage
  intro image memLen hfits
  exact ⟨_, boot_of_fits hfits, rfl, rfl, rfl, fun _ _ => Memory.get_place_image,
    fun _ => Memory.get_place_past_image, rfl, rfl⟩

end Sys2Proof.Machine
end

section
/-! PROOF. Decode and encode agree in both directions: an encoding decodes to its instruction, and a decoded instruction is
well formed and was read from its own operand cells (R80, R88, R94, R96). -/

namespace Sys2Proof

/-- The canonical word of a well-formed instruction decodes to its opcode and modes (R88, R96). -/
theorem decodeWord_canonicalWord {i : Instr} (hwf : i.wellFormed = true) :
    decodeWord (canonicalWord i.opcode (i.mode 1) (i.mode 2) (i.mode 3)) =
      .ok ⟨i.opcode, i.mode 1, i.mode 2, i.mode 3⟩ := by
  obtain ⟨hop, h1, h2, h3⟩ := canonicalWord_fields i.opcode (i.mode 1) (i.mode 2) (i.mode 3)
  rw [decodeWord_ok, hop, h1, h2, h3]
  exact ⟨canonicalWord_nonneg .., opcodeOf_num _, decodeMode_digit (mode_ne_immediate_of_write hwf),
    decodeMode_digit (mode_ne_immediate_of_write hwf), decodeMode_digit (mode_ne_immediate_of_write hwf)⟩

/-- Settles O7: the canonical word decodes to the opcode and modes, and `decode_params` reads the operand cells after it. -/
theorem decodeOfEncode : Obligations.DecodeOfEncode := by
  unfold Obligations.DecodeOfEncode
  exact fun i rest hwf =>
    decode_params rest (decodeWord_canonicalWord hwf) (fun _ => rfl) (fun _ => rfl) (fun _ => rfl)

/-- decode inverted: the first cell is an accepted word, and the operands are the cells that follow it (R81, R94). -/
theorem decode_ok {cs rest : List Cell} {i : Instr} (h : decode cs = .ok (i, rest)) :
    ∃ w tail d, cs = w :: tail ∧ decodeWord w = .ok d ∧ d.op.arity ≤ tail.length ∧
      i = d.assemble (fun k => tail.getD (k - 1) Config.unlistedCell) ∧ rest = tail.drop d.op.arity := by
  cases cs with
  | nil => cases h
  | cons w tail =>
    cases hd : decodeWord w with
    | error e => simp [decode, hd] at h
    | ok d =>
      by_cases hlen : tail.length < d.op.arity
      · simp [decode, hd, hlen] at h
      · have hle := Nat.not_lt.1 hlen
        rw [decode_cons_ok hd hle] at h
        cases h
        exact ⟨w, tail, d, rfl, hd, hle, rfl, rfl⟩

/-- What the decoder accepts has no Immediate `out` operand, whatever its operand cells are (R88). -/
theorem wellFormed_assemble {w : Cell} {d : Decoded} (h : decodeWord w = .ok d) (c : Nat → Cell) :
    (d.assemble c).wellFormed = true := by
  obtain ⟨-, -, h1, h2, h3⟩ := decodeWord_ok.1 h
  have hw1 := (decodeMode_ok h1).2
  have hw3 := (decodeMode_ok h3).2
  obtain ⟨op, m1, m2, m3⟩ := d
  cases op <;>
    simp_all [Decoded.assemble, Instr.wellFormed, Instr.params, Instr.opcode, Opcode.kinds, Param.allowedAs]

/-- Operand assembly takes the operand cells in order, cell k for operand k (R94). -/
theorem params_v_assemble (d : Decoded) (c : Nat → Cell) :
    (d.assemble c).params.map Param.v = (List.range d.op.arity).map fun k => c (k + 1) := by
  obtain ⟨op, m1, m2, m3⟩ := d
  cases op <;> rfl

/-- The first `n` cells of a list that is long enough, read one by one. -/
theorem map_range_getD_eq_take {α : Type} {l : List α} {n : Nat} (h : n ≤ l.length) (z : α) :
    ((List.range n).map fun k => l.getD k z) = l.take n := by
  refine List.ext_getElem (by simp [h]) fun k hk hk' => ?_
  have hlt : k < l.length := by simp at hk; omega
  simp [List.getElem?_eq_getElem hlt]

/-- Settles O8: the decoder's checks give the well-formedness, and assembly takes the cells that `decode` drops. -/
theorem decodedInstructionsAreWellFormed : Obligations.DecodedInstructionsAreWellFormed := by
  unfold Obligations.DecodedInstructionsAreWellFormed
  intro cs rest i h
  obtain ⟨w, tail, d, rfl, hd, hlen, rfl, rfl⟩ := decode_ok h
  refine ⟨wellFormed_assemble hd _, w, ?_⟩
  rw [params_v_assemble]
  simp only [Nat.add_sub_cancel]
  rw [map_range_getD_eq_take hlen, List.cons_append, List.take_append_drop]

end Sys2Proof
end

section
/-! PROOF. What a step leaves alone: MEM_LEN always, RB but for ARB, and the side of the host that an instruction does not
use (R36, R181, R246). -/

namespace Sys2Proof.Machine

/-- The IN handshake leaves MEM_LEN, RB and the OUT side as they are, however it ends. -/
theorem takeInput_frame {ea : Nat} {s t : State} (h : takeInput ea s = .next t) :
    t.memLen = s.memLen ∧ t.rb = s.rb ∧ t.outputs = s.outputs ∧ t.outAcks = s.outAcks := by
  rcases takeInput_next h with ⟨-, rfl⟩ | ⟨v, rest, -, -, rfl⟩ | ⟨rest, -, rfl⟩ <;> exact ⟨rfl, rfl, rfl, rfl⟩

/-- The OUT handshake leaves memory, MEM_LEN and RB as they are, however it ends. -/
theorem giveOutput_frame {v : Cell} {s t : State} (h : giveOutput v s = .next t) :
    t.mem = s.mem ∧ t.memLen = s.memLen ∧ t.rb = s.rb := by
  rcases giveOutput_next h with ⟨-, rfl⟩ | ⟨n, -, -, rfl⟩ <;> exact ⟨rfl, rfl, rfl⟩

section

variable {i : Instr} {s t : State}

/-- No instruction changes MEM_LEN (R246). -/
theorem ExecResult.memLen_eq (h : ExecResult i s t) : t.memLen = s.memLen := by
  cases h with
  | raised es e => rfl
  | done es eff => rfl
  | input p ea isIn target t answer =>
    obtain ⟨hlen, -⟩ := takeInput_frame answer
    exact hlen
  | output p v isOut value t answer =>
    obtain ⟨-, hlen, -⟩ := giveOutput_frame answer
    exact hlen

/-- No instruction but ARB writes RB (R181). -/
theorem ExecResult.rb_eq (h : ExecResult i s t) (hi : ∀ p, i ≠ .arb p) : t.rb = s.rb := by
  cases h with
  | raised es e => rfl
  | done es eff reads target noIo base =>
    cases hb : eff.rb with
    | none => simp [hb]
    | some b =>
      obtain ⟨p, hp⟩ := base b hb
      exact absurd hp (hi p)
  | input p ea isIn target t answer =>
    obtain ⟨-, hrb, -⟩ := takeInput_frame answer
    exact hrb
  | output p v isOut value t answer =>
    obtain ⟨-, -, hrb⟩ := giveOutput_frame answer
    exact hrb

/-- No instruction but IN uses up an answer of the host (R151). -/
theorem ExecResult.inAnswers_eq (h : ExecResult i s t) (hi : ∀ p, i ≠ .inp p) : t.inAnswers = s.inAnswers := by
  by_contra hne
  obtain ⟨p, -, hp, -⟩ := h.input_of_inAnswers_ne hne
  exact hi p hp

/-- No instruction but OUT gives an output or uses up an acceptance of the host (R152). -/
theorem ExecResult.outSide_eq (h : ExecResult i s t) (hi : ∀ p, i ≠ .out p) :
    t.outputs = s.outputs ∧ t.outAcks = s.outAcks := by
  cases h with
  | raised es e => exact ⟨rfl, rfl⟩
  | done es eff => exact ⟨rfl, rfl⟩
  | input p ea isIn target t answer =>
    obtain ⟨-, -, hout, hacks⟩ := takeInput_frame answer
    exact ⟨hout, hacks⟩
  | output p v isOut => exact absurd isOut (hi p)

/-- No step changes MEM_LEN (R246). -/
theorem step_memLen_eq (h : step s = .next t) : t.memLen = s.memLen := by
  cases hp : s.phase with
  | idle =>
    rw [step_idle hp] at h
    rcases startStep_next h with ⟨es, e, -, -, rfl⟩ | ⟨d, -, -, -, hx⟩
    · rfl
    · exact hx.memLen_eq
  | awaitIn ea =>
    obtain ⟨hlen, -⟩ := takeInput_frame (step_awaitIn hp ▸ h)
    exact hlen
  | awaitOut v =>
    obtain ⟨-, hlen, -⟩ := giveOutput_frame (step_awaitOut hp ▸ h)
    exact hlen

end

end Sys2Proof.Machine
end

section
/-! PROOF. The port traffic of a step: reads of cells of memory, a request on IN or OUT at most, then at most one write,
which is what happens to memory (R40, R53, R55, R120). -/

namespace Sys2Proof.Machine

open Sys2Proof.Safety

/-! ### Transactions before the write, and the write -/

/-- Transactions without a MEM write, in a memory of `len` cells: at most `n` MEM reads, each of a valid address, and at
most `q` requests on IN or OUT. -/
structure NoWrites (len n q : Nat) (es : List PortEvent) : Prop where
  valid : ∀ e ∈ es, ∀ a, memAddr e = some a → a < len
  reads : es.countP isRead ≤ n
  requests : es.countP isIoRequest ≤ q
  writes : es.countP isWrite = 0

/-- Every MEM read gave the value that the cell has in `m`. -/
def ReadsAgree (m : Memory) (es : List PortEvent) : Prop := ∀ a v, PortEvent.memRead a v ∈ es → v = m.get a

/-- The MEM write that ends a step's transactions, if there is one: of a cell of the memory `m` of `len` cells, which makes
it the memory of the state `t` after the step, and only in a step that is over (R118, R119). -/
inductive FinalWrite (len : Nat) (m : Memory) (t : State) : List PortEvent → Prop where
  | none (mem : t.mem = m) : FinalWrite len m t []
  | one (a : Nat) (v : Cell) (target : a < len) (mem : t.mem = m.put a v) (idle : t.phase = .idle) :
      FinalWrite len m t [.memWrite a v]

section

variable {len n n' q q' : Nat} {m : Memory} {t : State} {es fs ws : List PortEvent}

theorem NoWrites.nil : NoWrites len 0 0 [] := ⟨by simp, by simp, by simp, by simp⟩

theorem NoWrites.append (h : NoWrites len n q es) (h' : NoWrites len n' q' fs) :
    NoWrites len (n + n') (q + q') (es ++ fs) where
  valid e he := (List.mem_append.1 he).elim (h.valid e) (h'.valid e)
  reads := List.countP_append ▸ Nat.add_le_add h.reads h'.reads
  requests := List.countP_append ▸ Nat.add_le_add h.requests h'.requests
  writes := by rw [List.countP_append, h.writes, h'.writes]

theorem NoWrites.mono (h : NoWrites len n q es) (hn : n ≤ n') (hq : q ≤ q') : NoWrites len n' q' es :=
  ⟨h.valid, h.reads.trans hn, h.requests.trans hq, h.writes⟩

theorem NoWrites.not_isWrite (h : NoWrites len n q es) {e : PortEvent} (he : e ∈ es) : ¬ isWrite e = true :=
  List.countP_eq_zero.1 h.writes e he

/-- A transaction on IN or OUT is no MEM transaction, and is one request at most. -/
theorem noWrites_of_memAddr_none {e : PortEvent} (h : memAddr e = none) : NoWrites len 0 1 [e] := by
  cases e with
  | memRead a v => cases h
  | memWrite a v => cases h
  | _ => exact ⟨by simp [memAddr], le_refl 0, List.countP_le_length, rfl⟩

/-- An answer or an acceptance is no MEM transaction and no request. -/
theorem noWrites_of_not_request {e : PortEvent} (h : memAddr e = none) (hq : isIoRequest e = false) :
    NoWrites len 0 0 [e] :=
  have hio := noWrites_of_memAddr_none (len := len) h
  ⟨hio.valid, hio.reads, by simp [hq], hio.writes⟩

theorem ReadsAgree.nil : ReadsAgree m [] := by simp [ReadsAgree]

theorem ReadsAgree.append (h : ReadsAgree m es) (h' : ReadsAgree m fs) : ReadsAgree m (es ++ fs) :=
  fun a v he => (List.mem_append.1 he).elim (h a v) (h' a v)

theorem readsAgree_of_memAddr_none {e : PortEvent} (h : memAddr e = none) : ReadsAgree m [e] := by
  intro a v he
  rw [← List.mem_singleton.1 he] at h
  cases h

theorem ResolvedReads.noWrites {s : State} (h : ResolvedReads s n es) : NoWrites s.memLen.val n 0 es := by
  obtain ⟨hlen, hread⟩ := h
  refine ⟨fun e he a ha => ?_, List.countP_le_length.trans hlen, (List.countP_eq_zero.2 fun e he => ?_).le,
    List.countP_eq_zero.2 fun e he => ?_⟩ <;> obtain ⟨b, hb, rfl⟩ := hread e he
  · cases ha
    exact hb
  · nofun
  · nofun

theorem ResolvedReads.readsAgree {s : State} (h : ResolvedReads s n es) : ReadsAgree s.mem es := by
  intro a v he
  obtain ⟨b, -, hb⟩ := h.2 _ he
  cases hb
  rfl

/-- R40, R55 and R120 for transactions that end with the write: the bounds before it, and the write itself. -/
theorem NoWrites.bounds (h : NoWrites len n q es) (hw : FinalWrite len m t ws) :
    (∀ e ∈ es ++ ws, ∀ a, memAddr e = some a → a < len) ∧
    (es ++ ws).countP isRead ≤ n ∧ (es ++ ws).countP isWrite ≤ 1 ∧ (es ++ ws).countP isIoRequest ≤ q ∧
    (es ++ ws).Pairwise (fun x y => isWrite x = true → isRead y = false) := by
  have horder : es.Pairwise (fun x y => isWrite x = true → isRead y = false) :=
    List.pairwise_of_forall_mem_list fun x hx _ _ hwrite => absurd hwrite (h.not_isWrite hx)
  have hlast : ∀ x ∈ es, ∀ y ∈ ws, isWrite x = true → isRead y = false :=
    fun x hx _ _ hwrite => absurd hwrite (h.not_isWrite hx)
  simp only [List.countP_append, h.writes]
  cases hw with
  | none => exact ⟨by simpa using h.valid, h.reads, by simp, h.requests, by simpa using horder⟩
  | one a v target =>
    refine ⟨fun e he b hb => ?_, h.reads, le_refl 1, h.requests,
      List.pairwise_append.2 ⟨horder, List.pairwise_singleton _ _, hlast⟩⟩
    rcases List.mem_append.1 he with he | he
    · exact h.valid e he b hb
    · obtain rfl := List.mem_singleton.1 he
      cases hb
      exact target

/-- The bounds of a whole step hold of a state whose port record ends with its write. -/
theorem NoWrites.portInv (h : NoWrites len 6 1 es) (hw : FinalWrite len m t ws) (hev : t.events = es ++ ws)
    (hlen : t.memLen.val = len) : PortInv t := by
  subst hlen
  unfold PortInv PortsWithin
  rw [hev]
  refine ⟨h.bounds hw, fun hwait => ?_⟩
  cases hw with
  | none => simpa using h.writes
  | one a v target mem idle => exact absurd idle hwait

end

/-! ### The traffic of each part of a step -/

/-- From `s` to `t` the record has grown by the transactions `es` without a write, with reads of the values in `s`, and
then by the write. -/
structure Traffic (n q : Nat) (s t : State) (es ws : List PortEvent) : Prop where
  events : t.events = s.events ++ es ++ ws
  ports : NoWrites s.memLen.val n q es
  agree : ReadsAgree s.mem es
  last : FinalWrite s.memLen.val s.mem t ws

section

variable {s t : State}

/-- The IN handshake makes no request of its own, and its write is the answer's (R41, R150). -/
theorem takeInput_traffic {ea : Nat} (h : takeInput ea s = .next t) (hea : ea < s.memLen.val) :
    ∃ es ws, Traffic 0 0 s t es ws := by
  rcases takeInput_next h with ⟨-, rfl⟩ | ⟨v, rest, -, -, rfl⟩ | ⟨rest, -, rfl⟩
  · exact ⟨[], [], by simp, .nil, .nil, .none rfl⟩
  · exact ⟨[.inOk v], [.memWrite ea v], by simp, noWrites_of_not_request rfl rfl, readsAgree_of_memAddr_none rfl,
      .one ea v hea rfl rfl⟩
  · exact ⟨[.inFail], [], by simp, noWrites_of_not_request rfl rfl, readsAgree_of_memAddr_none rfl, .none rfl⟩

/-- The OUT handshake makes no request of its own and no write (R42, R152). -/
theorem giveOutput_traffic {v : Cell} (h : giveOutput v s = .next t) : ∃ es ws, Traffic 0 0 s t es ws := by
  rcases giveOutput_next h with ⟨-, rfl⟩ | ⟨n, -, -, rfl⟩
  · exact ⟨[], [], by simp, .nil, .nil, .none rfl⟩
  · exact ⟨[.outAck], [], by simp, noWrites_of_not_request rfl rfl, readsAgree_of_memAddr_none rfl, .none rfl⟩

/-- Transactions recorded before a part of a step count with that part. -/
theorem Traffic.of_log {n n' q q' : Nat} {fs es ws : List PortEvent} (h : Traffic n' q' (s.log fs) t es ws)
    (hports : NoWrites s.memLen.val n q fs) (hagree : ReadsAgree s.mem fs) :
    Traffic (n + n') (q + q') s t (fs ++ es) ws :=
  ⟨by simpa using h.events, hports.append h.ports, hagree.append h.agree, h.last⟩

theorem effect_finalWrite {eff : Effect} (s : State) {len : Nat}
    (htarget : ∀ a v, eff.write = some (a, v) → a < len) :
    FinalWrite len s.mem (s.committed eff) eff.writeEvents := by
  obtain ⟨_ | ⟨a, v⟩, rb, n, halts⟩ := eff
  · exact .none rfl
  · exact .one a v (htarget a v rfl) rfl rfl

/-- An instruction's own phases: at most 2 reads and one request before the write (R115 to R120). -/
theorem ExecResult.traffic {i : Instr} (h : ExecResult i s t) : ∃ es ws, Traffic 2 1 s t es ws := by
  cases h with
  | raised es e reads =>
    exact ⟨es, [], by simp, reads.noWrites.mono (le_refl 2) (by decide), reads.readsAgree, .none rfl⟩
  | done es eff reads target =>
    exact ⟨es, eff.writeEvents, by simp, reads.noWrites.mono (le_refl 2) (by decide), reads.readsAgree,
      effect_finalWrite (s.log es) fun a v hw => (target a v hw).1⟩
  | input p ea isIn target t answer =>
    obtain ⟨es, ws, h⟩ := takeInput_traffic answer (resolveAddress_lt target)
    have h := h.of_log (noWrites_of_memAddr_none rfl) (readsAgree_of_memAddr_none rfl)
    exact ⟨_, ws, h.events, h.ports.mono (by decide) (le_refl 1), h.agree, h.last⟩
  | output p v isOut value t answer =>
    obtain ⟨es, ws, h⟩ := giveOutput_traffic answer
    have hread := resolutionReads_of_ok value
    have h := h.of_log (hread.noWrites.append (noWrites_of_memAddr_none rfl))
      (hread.readsAgree.append (readsAgree_of_memAddr_none rfl))
    exact ⟨_, ws, h.events, h.ports.mono (by decide) (le_refl 1), h.agree, h.last⟩

/-- A new step: at most 4 reads of instruction cells before the instruction's own traffic (R111, R114, R120). -/
theorem startStep_traffic (h : startStep s = .next t) : ∃ es ws, Traffic 6 1 s.begin t es ws := by
  rcases startStep_next h with ⟨es, e, reads, -, rfl⟩ | ⟨d, -, hlen, -, hx⟩
  · have hreads : ResolvedReads s.begin 4 es := reads
    exact ⟨es, [], by simp, hreads.noWrites.mono (by decide) (by decide), hreads.readsAgree, .none rfl⟩
  · obtain ⟨es, ws, h⟩ := hx.traffic
    have hfetch : ResolvedReads s.begin 4 (fetchReads s d.op.length 0) :=
      (fetchReads_resolved (.inr hlen)).mono (length_le_four d.op)
    have h := h.of_log hfetch.noWrites hfetch.readsAgree
    exact ⟨_, ws, h⟩

theorem awaitIn_of_waitInv {ea : Nat} (hw : WaitInv s) (hs : s.phase = .awaitIn ea) :
    s.pc.toNat < s.memLen.val ∧ ea < s.memLen.val := by
  rw [WaitInv, hs] at hw
  obtain ⟨hpc, hea, -⟩ := hw
  exact ⟨hpc, hea⟩

theorem awaitOut_of_waitInv {v : Cell} (hw : WaitInv s) (hs : s.phase = .awaitOut v) :
    s.pc.toNat < s.memLen.val := by
  rw [WaitInv, hs] at hw
  obtain ⟨hpc, -⟩ := hw
  exact hpc

/-- A step that goes on from a wait has only its handshake's traffic left (R118, R224). -/
theorem waiting_traffic (hw : WaitInv s) (hp : s.phase ≠ .idle) (h : step s = .next t) :
    ∃ es ws, Traffic 0 0 s t es ws := by
  cases hs : s.phase with
  | idle => exact absurd hs hp
  | awaitIn ea =>
    obtain ⟨-, hea⟩ := awaitIn_of_waitInv hw hs
    exact takeInput_traffic (step_awaitIn hs ▸ h) hea
  | awaitOut v => exact giveOutput_traffic (step_awaitOut hs ▸ h)

/-- The record of a waiting step within the bounds holds no write yet. -/
theorem noWrites_of_portInv (h : PortInv s) (hp : s.phase ≠ .idle) : NoWrites s.memLen.val 6 1 s.events := by
  obtain ⟨⟨hvalid, hreads, -, hrequests, -⟩, hwrites⟩ := h
  exact ⟨hvalid, hreads, hrequests, hwrites hp⟩

end

/-- Memory after the final write: what it wrote, every other cell as before, and unchanged without one (R53). -/
theorem FinalWrite.mem_get {len : Nat} {m : Memory} {t : State} {ws : List PortEvent} (h : FinalWrite len m t ws) :
    (∀ a v, PortEvent.memWrite a v ∈ ws → t.mem.get a = v) ∧
      ∀ a, (∀ v, PortEvent.memWrite a v ∉ ws) → t.mem.get a = m.get a := by
  cases h with
  | none mem => exact ⟨by simp, fun a _ => by rw [mem]⟩
  | one b w target mem =>
    rw [mem]
    refine ⟨fun a v he => ?_, fun a ha => Memory.get_put_of_ne m w ?_⟩
    · cases List.mem_singleton.1 he
      exact Memory.get_put_self m b w
    · rintro rfl
      exact ha w (by simp)

/-- The writes of a step are those of its final write, and its reads are those before it. -/
theorem Traffic.mem_events {n q : Nat} {s t : State} {es ws : List PortEvent} (h : Traffic n q s t es ws) :
    (∀ a v, PortEvent.memWrite a v ∈ es ++ ws ↔ PortEvent.memWrite a v ∈ ws) ∧
      ∀ a v, PortEvent.memRead a v ∈ es ++ ws ↔ PortEvent.memRead a v ∈ es := by
  refine ⟨fun a v => ?_, fun a v => ?_⟩ <;> rw [List.mem_append]
  · exact or_iff_right fun he => h.ports.not_isWrite he rfl
  · refine or_iff_left fun he => ?_
    cases h.last with
    | none => cases he
    | one b w => cases List.mem_singleton.1 he

/-! ### The obligations -/

/-- Settles O31. A new step's traffic is the whole record; a waiting step's is added to a record that holds no write yet. -/
theorem stepKeepsThePortBounds : Obligations.StepKeepsThePortBounds := by
  unfold Obligations.StepKeepsThePortBounds
  intro s t hwait hinv h
  have hlen : t.memLen.val = s.memLen.val := by rw [step_memLen_eq h]
  by_cases hp : s.phase = .idle
  · obtain ⟨es, ws, htraffic⟩ := startStep_traffic (step_idle hp ▸ h)
    exact htraffic.ports.portInv htraffic.last htraffic.events hlen
  · obtain ⟨es, ws, htraffic⟩ := waiting_traffic hwait hp h
    exact ((noWrites_of_portInv hinv hp).append htraffic.ports).portInv htraffic.last htraffic.events hlen

/-- Settles O32: the instruction's traffic, and its reads are of valid addresses with the values before it. -/
theorem execPortTraffic : Obligations.ExecPortTraffic := by
  unfold Obligations.ExecPortTraffic
  intro i s t h
  obtain ⟨es, ws, htraffic⟩ := (exec_next h).traffic
  obtain ⟨hvalid, hreads, hwrites, hrequests, horder⟩ := htraffic.ports.bounds htraffic.last
  refine ⟨es ++ ws, by simpa using htraffic.events, hreads, hwrites, hrequests, horder, fun a v he => ?_,
    fun a v he => hvalid _ he a rfl⟩
  exact ⟨hvalid _ he a rfl, htraffic.agree a v ((htraffic.mem_events.2 a v).1 he)⟩

/-- Settles O33: the record of a new step is its traffic, whose final write is what happens to memory. -/
theorem memoryFollowsTheMemPort : Obligations.MemoryFollowsTheMemPort := by
  unfold Obligations.MemoryFollowsTheMemPort
  intro s t hp h
  obtain ⟨es, ws, htraffic⟩ := startStep_traffic (step_idle hp ▸ h)
  have hev : t.events = es ++ ws := htraffic.events
  obtain ⟨hwrites, hreads⟩ := htraffic.mem_events
  obtain ⟨hwritten, hother⟩ := htraffic.last.mem_get
  simp only [hev, hwrites, hreads]
  exact ⟨hwritten, hother, htraffic.agree⟩

end Sys2Proof.Machine
end

section
/-! PROOF. The invariant of an instance: every step from it answers, and with a state that has it (R36, R110, R118). -/

namespace Sys2Proof.Machine

open Sys2Proof.Safety

section

variable {s t : State}

/-- A state with no step outstanding has nothing to wait for. -/
theorem waitInv_of_idle (h : s.phase = .idle) : WaitInv s := by
  rw [WaitInv, h]
  trivial

/-- A write inside memory keeps it canonical and inside MEM_LEN. -/
theorem memInv_put (h : MemInv s) {a : Nat} (ha : a < s.memLen.val) (v : Cell) :
    MemInv { s with mem := s.mem.put a v } := by
  obtain ⟨hwf, hin⟩ := h
  refine ⟨Memory.wf_put a v hwf, fun e he => ?_⟩
  rcases Memory.mem_put he with rfl | he
  · exact ha
  · exact hin e he

/-- The final write of a step keeps memory canonical and inside MEM_LEN. -/
theorem FinalWrite.memInv {ws : List PortEvent} (h : FinalWrite s.memLen.val s.mem t ws) (hlen : t.memLen = s.memLen)
    (hs : MemInv s) : MemInv t := by
  unfold MemInv at *
  rw [hlen]
  cases h with
  | none mem => rwa [mem]
  | one a v target mem =>
    rw [mem]
    exact memInv_put hs target v

/-- Where the IN handshake waits, it waits in memory and for a cell of memory (R118). -/
theorem takeInput_waitInv {ea : Nat} (h : takeInput ea s = .next t) (hpc : s.pc.toNat < s.memLen.val)
    (hea : ea < s.memLen.val) : WaitInv t := by
  rcases takeInput_next h with ⟨-, rfl⟩ | ⟨v, rest, -, -, rfl⟩ | ⟨rest, -, rfl⟩
  · exact ⟨hpc, hea, rfl⟩
  · exact waitInv_of_idle rfl
  · exact waitInv_of_idle rfl

/-- Where the OUT handshake waits, it waits in memory (R118). -/
theorem giveOutput_waitInv {v : Cell} (h : giveOutput v s = .next t) (hpc : s.pc.toNat < s.memLen.val) :
    WaitInv t := by
  rcases giveOutput_next h with ⟨-, rfl⟩ | ⟨n, -, -, rfl⟩
  · exact ⟨hpc, rfl⟩
  · exact waitInv_of_idle rfl

/-- An instruction in memory that waits, waits consistently. -/
theorem ExecResult.waitInv {i : Instr} (h : ExecResult i s t) (hpc : s.pc.toNat < s.memLen.val) : WaitInv t := by
  cases h with
  | raised es e => exact waitInv_of_idle rfl
  | done es eff => exact waitInv_of_idle rfl
  | input p ea isIn target t answer => exact takeInput_waitInv (s := s.log _) answer hpc (resolveAddress_lt target)
  | output p v isOut value t answer => exact giveOutput_waitInv (s := s.log _) answer hpc

/-- A step from a consistent wait, or a new one, leaves a consistent wait if any. -/
theorem step_waitInv (hw : WaitInv s) (h : step s = .next t) : WaitInv t := by
  cases hs : s.phase with
  | idle =>
    rw [step_idle hs] at h
    rcases startStep_next h with ⟨es, e, -, -, rfl⟩ | ⟨d, -, hlen, -, hx⟩
    · exact waitInv_of_idle rfl
    · have hpos := length_pos d.op
      exact hx.waitInv (show s.pc.toNat < s.memLen.val by omega)
  | awaitIn ea =>
    obtain ⟨hpc, hea⟩ := awaitIn_of_waitInv hw hs
    exact takeInput_waitInv (step_awaitIn hs ▸ h) hpc hea
  | awaitOut v => exact giveOutput_waitInv (step_awaitOut hs ▸ h) (awaitOut_of_waitInv hw hs)

/-- A step's traffic ends with the write, if any, that makes the memory after it. -/
theorem step_finalWrite (hw : WaitInv s) (h : step s = .next t) : ∃ ws, FinalWrite s.memLen.val s.mem t ws := by
  by_cases hp : s.phase = .idle
  · obtain ⟨es, ws, htraffic⟩ := startStep_traffic (step_idle hp ▸ h)
    exact ⟨ws, htraffic.last⟩
  · obtain ⟨es, ws, htraffic⟩ := waiting_traffic hw hp h
    exact ⟨ws, htraffic.last⟩

/-- The IN handshake in memory always answers. -/
theorem takeInput_answers (ea : Nat) (hpc : s.pc.toNat < s.memLen.val) : ∃ t, takeInput ea s = .next t := by
  cases ha : s.inAnswers with
  | nil => exact ⟨_, takeInput_wait ha⟩
  | cons x rest =>
    cases x with
    | ok v => exact ⟨_, takeInput_ok ha (pc_add_fits hpc (by decide))⟩
    | fail => exact ⟨_, takeInput_fail ha⟩

/-- The OUT handshake in memory always answers. -/
theorem giveOutput_answers (v : Cell) (hpc : s.pc.toNat < s.memLen.val) : ∃ t, giveOutput v s = .next t := by
  cases ha : s.outAcks with
  | zero => exact ⟨_, giveOutput_wait ha⟩
  | succ n => exact ⟨_, giveOutput_ok ha (pc_add_fits hpc (by decide))⟩

end

/-- Settles O30: the final write keeps memory's part, the handshakes keep the wait's, and no step changes MEM_LEN. -/
theorem stepKeepsTheInvariant : Obligations.StepKeepsTheInvariant := by
  unfold Obligations.StepKeepsTheInvariant
  intro s t hinv h
  obtain ⟨hmem, hwait⟩ := hinv
  have hlen := step_memLen_eq h
  obtain ⟨ws, hlast⟩ := step_finalWrite hwait h
  exact ⟨⟨hlast.memInv hlen hmem, step_waitInv hwait h⟩, hlen⟩

/-- Settles O29: a new step always answers, and a consistent wait stands in memory, where its handshake does. -/
theorem everyStepAnswers : Obligations.EveryStepAnswers := by
  unfold Obligations.EveryStepAnswers
  intro s hw
  cases hs : s.phase with
  | idle => exact step_idle hs ▸ startStep_answers s
  | awaitIn ea => exact step_awaitIn hs ▸ takeInput_answers ea (awaitIn_of_waitInv hw hs).1
  | awaitOut v => exact step_awaitOut hs ▸ giveOutput_answers v (awaitOut_of_waitInv hw hs)

end Sys2Proof.Machine
end

section
/-! PROOF. The canonical form of memory is unique: the listed cells can be read off cell by cell (log entry 9). -/

namespace Sys2Proof.Machine.Memory

section

variable {k a : Nat} {v w : Cell} {m m' : Memory}

@[simp] theorem get_cons_self : get ((k, v) :: m) k = v := by
  simp [get]

theorem get_cons_of_ne (h : a ≠ k) : get ((k, v) :: m) a = get m a := by
  simp [get, h.symm]

/-- Up to the first address that a canonical memory lists after its head, its tail reads as unlisted. -/
theorem get_of_le_above (hk : ∀ e ∈ m, k < e.1) (ha : a ≤ k) : get m a = Config.unlistedCell :=
  get_of_above fun e he => by
    have := hk e he
    omega

/-- A memory whose addresses all lie above `k` differs at `k` from one that lists a value there. -/
theorem head_le_of_get_eq {j : Nat} (hv : v ≠ Config.unlistedCell) (hj : ∀ e ∈ m', j < e.1)
    (h : ∀ a, get ((k, v) :: m) a = get ((j, w) :: m') a) : j ≤ k := by
  by_contra hlt
  have hval : v = get m' k := by simpa [get_cons_of_ne (Nat.ne_of_lt (Nat.lt_of_not_le hlt))] using h k
  exact hv (hval.trans (get_of_le_above hj (by omega)))

/-- Below the heads' own address both tails read as unlisted, and elsewhere as the lists do. -/
theorem tail_get_eq (hk : ∀ e ∈ m, k < e.1) (hk' : ∀ e ∈ m', k < e.1)
    (h : ∀ a, get ((k, v) :: m) a = get ((k, w) :: m') a) (a : Nat) : get m a = get m' a := by
  by_cases ha : a = k
  · rw [get_of_le_above hk ha.le, get_of_le_above hk' ha.le]
  · simpa [get_cons_of_ne ha] using h a

theorem eq_nil_of_get_unlisted (hm : wf m = true) (h : ∀ a, get m a = Config.unlistedCell) : m = [] := by
  cases m with
  | nil => rfl
  | cons e m =>
    obtain ⟨k, v⟩ := e
    obtain ⟨hv, -, -⟩ := wf_cons.1 hm
    exact absurd (by simpa using h k) hv

end

/-- Settles O19, by induction on one list: two canonical lists that read the same have the same first entry, and tails that
read the same. -/
theorem canonicalMemoryIsUnique : Obligations.CanonicalMemoryIsUnique := by
  unfold Obligations.CanonicalMemoryIsUnique
  intro m
  induction m with
  | nil => exact fun m' _ hm' h => (eq_nil_of_get_unlisted hm' fun a => (h a).symm).symm
  | cons e m ih =>
    intro m' hm hm' h
    obtain ⟨k, v⟩ := e
    cases m' with
    | nil => exact eq_nil_of_get_unlisted hm h
    | cons e' m' =>
      obtain ⟨k', v'⟩ := e'
      obtain ⟨hv, hk, htail⟩ := wf_cons.1 hm
      obtain ⟨hv', hk', htail'⟩ := wf_cons.1 hm'
      obtain rfl : k = k' :=
        Nat.le_antisymm (head_le_of_get_eq hv' hk fun a => (h a).symm) (head_le_of_get_eq hv hk' h)
      obtain rfl : v = v' := by simpa using h k
      rw [ih m' htail htail' (tail_get_eq hk hk' h)]

end Sys2Proof.Machine.Memory
end

section
/-! PROOF. What each instruction does where it completes: ADD, MUL, LT and EQ (R140, R141, R170, R171). -/

namespace Sys2Proof.Machine

section

variable {s : State} {p1 p2 p3 : Param} {a b r : Cell} {ea : Nat}

/-- Shape F3 where every check passes, field by field. -/
theorem storeResult_ok_fields {f : Cell → Cell → Except StepError Cell} (hin : s.pc.toNat < s.memLen.val)
    (h1 : resolveValue s p1 = .ok a) (h2 : resolveValue s p2 = .ok b) (h3 : resolveAddress s p3 = .ok ea)
    (h4 : f a b = .ok r) :
    ∃ pc : PcWord, pc.toNat = s.pc.toNat + 4 ∧
      storeResult f p1 p2 p3 s = .next { s with
        mem := s.mem.put ea r, pc := pc, rsp := some .continued, phase := .idle,
        events := s.events ++ resolutionReads s p1 ++ resolutionReads s p2 ++ [.memWrite ea r] } := by
  have hfits : s.pc.toNat + 4 < 18446744073709551616 := pc_add_fits hin (by decide)
  refine ⟨_, committed_pc_toNat s (eff := { nextPc := s.pc.toNat + 4 }) hfits, ?_⟩
  rw [storeResult_ok h1 h2 h3 h4 hfits]
  simp [State.committed, State.log]

theorem truthCell_val (t : Bool) : (truthCell t).val = if t then 1 else 0 := by
  cases t <;> rfl

theorem aluLt_eq (h : r.val = if a.val < b.val then 1 else 0) : aluLt a b = r :=
  Cell.ext (by simpa [aluLt, truthCell_val] using h.symm)

theorem aluEq_eq (h : r.val = if a.val = b.val then 1 else 0) : aluEq a b = r :=
  Cell.ext (by simpa [aluEq, truthCell_val] using h.symm)

end

/-- Settles O36: shape F3 with the exact sum. -/
theorem addStoresTheSum : Obligations.AddStoresTheSum := by
  unfold Obligations.AddStoresTheSum
  exact fun s p1 p2 p3 a b r ea hin h1 h2 h3 hr => storeResult_ok_fields hin h1 h2 h3 (aluAdd_ok.2 hr)

/-- Settles O37: shape F3 with the exact product. -/
theorem mulStoresTheProduct : Obligations.MulStoresTheProduct := by
  unfold Obligations.MulStoresTheProduct
  exact fun s p1 p2 p3 a b r ea hin h1 h2 h3 hr => storeResult_ok_fields hin h1 h2 h3 (aluMul_ok.2 hr)

/-- Settles O38: shape F3 with the signed comparison, which has no error. -/
theorem ltStoresTheComparison : Obligations.LtStoresTheComparison := by
  unfold Obligations.LtStoresTheComparison
  exact fun s p1 p2 p3 a b r ea hin h1 h2 h3 hr => storeResult_ok_fields hin h1 h2 h3 (congrArg Except.ok (aluLt_eq hr))

/-- Settles O39: shape F3 with the test of equality, which has no error. -/
theorem eqStoresTheComparison : Obligations.EqStoresTheComparison := by
  unfold Obligations.EqStoresTheComparison
  exact fun s p1 p2 p3 a b r ea hin h1 h2 h3 hr => storeResult_ok_fields hin h1 h2 h3 (congrArg Except.ok (aluEq_eq hr))

end Sys2Proof.Machine
end

section
/-! PROOF. IN and OUT from their request on: answered, failed or waiting (R150 to R153). -/

namespace Sys2Proof.Machine

/-- Settles O42: with the target resolved, IN sends its request and its handshake takes the value. -/
theorem inStoresTheHostsValue : Obligations.InStoresTheHostsValue := by
  unfold Obligations.InStoresTheHostsValue
  intro s p ea v rest hin htarget ha
  obtain ⟨pc, hpc, h⟩ := takeInput_ok_fields (s := s.log [.inReq]) (ea := ea) hin ha
  refine ⟨pc, hpc, ?_⟩
  rw [exec_inp_ok htarget, h]
  simp [State.log]

/-- Settles O43: with the target resolved, IN sends its request and its handshake takes the failure. -/
theorem inFailsWithTheHost : Obligations.InFailsWithTheHost := by
  unfold Obligations.InFailsWithTheHost
  intro s p ea rest htarget ha
  rw [exec_inp_ok htarget, takeInput_fail_fields (s := s.log [.inReq]) ha]
  simp [State.log]

/-- Settles O45: with the value resolved, OUT presents it and its handshake takes the acceptance. -/
theorem outEmitsTheValue : Obligations.OutEmitsTheValue := by
  unfold Obligations.OutEmitsTheValue
  intro s p v n hin hv ha
  obtain ⟨pc, hpc, h⟩ :=
    giveOutput_ok_fields (s := s.log (resolutionReads s p ++ [.outValid v])) (v := v) hin ha
  refine ⟨pc, hpc, ?_⟩
  rw [exec_out_ok hv, h]
  simp [State.log]

/-- Settles O46: the request stands recorded, and the handshake without an answer only waits. -/
theorem ioWaitsForTheHost : Obligations.IoWaitsForTheHost := by
  unfold Obligations.IoWaitsForTheHost
  refine ⟨fun s p ea htarget ha => ?_, fun s p v hv ha => ?_⟩
  · rw [exec_inp_ok htarget, takeInput_wait (s := s.log [.inReq]) ha]
    rfl
  · rw [exec_out_ok hv, giveOutput_wait (s := s.log _) ha]
    simp [State.log, State.wait]

end Sys2Proof.Machine
end

section
/-! PROOF. JT, JF, ARB and HLT where they complete, and ARB where RB overflows (R160, R161, R180, R190). -/

namespace Sys2Proof.Machine

section

variable {s : State} {p p1 p2 : Param} {c v b : Cell}

/-- The jump resolver's next PC, for a target that is not negative where the jump is taken (R121). -/
theorem jumpNext_of_nonneg {taken : Bool} (p2 : Param) (s : State) (h : taken = true → 0 ≤ v.val) :
    ∃ n, jumpNext taken v p2 s = .ok n ∧ (n : Int) = if taken then v.val else s.pc.toNat + 3 := by
  cases taken with
  | true => exact ⟨_, jumpNext_taken_nonneg p2 s (h rfl), Int.toNat_of_nonneg (h rfl)⟩
  | false => exact ⟨_, rfl, rfl⟩

/-- Shape F2 where every check passes, field by field. -/
theorem jumpWhen_ok_fields {cond : Cell → Bool} (hin : s.pc.toNat < s.memLen.val) (h1 : resolveValue s p1 = .ok c)
    (h2 : resolveValue s p2 = .ok v) (h3 : cond c = true → 0 ≤ v.val) :
    ∃ pc : PcWord, (pc.toNat : Int) = (if cond c then v.val else s.pc.toNat + 3) ∧
      jumpWhen cond p1 p2 s = .next { s with
        pc := pc, rsp := some .continued, phase := .idle,
        events := s.events ++ resolutionReads s p1 ++ resolutionReads s p2 } := by
  obtain ⟨n, hn, hval⟩ := jumpNext_of_nonneg p2 s h3
  have hfits : n < 18446744073709551616 := by
    have hmax := v.inRange.2
    have hstep := pc_add_fits hin (show 3 ≤ 4 by decide)
    split at hval <;> omega
  refine ⟨_, (congrArg Int.ofNat (committed_pc_toNat s (eff := { nextPc := n }) hfits)).trans hval, ?_⟩
  rw [jumpWhen_ok h1 h2 hn hfits]
  simp [State.committed, State.log]

/-- ARB where every check passes, field by field. -/
theorem exec_arb_ok_fields (hin : s.pc.toNat < s.memLen.val) (hv : resolveValue s p = .ok v)
    (hb : b.val = s.rb.val + v.val) :
    ∃ pc : PcWord, pc.toNat = s.pc.toNat + 2 ∧
      exec (.arb p) s = .next { s with
        rb := b, pc := pc, rsp := some .continued, phase := .idle, events := s.events ++ resolutionReads s p } := by
  have hfits : s.pc.toNat + 2 < 18446744073709551616 := pc_add_fits hin (by decide)
  have hsum : aluArb s.rb v = .ok b := checked_ok.2 hb
  refine ⟨_, committed_pc_toNat s (eff := { nextPc := s.pc.toNat + 2 }) hfits, ?_⟩
  rw [exec_arb_ok hv, hsum, orRaise_ok, commit_of_lt _ hfits]
  simp [State.committed, State.log]

end

/-- Settles O51: shape F2, taken where the condition's value is not zero. -/
theorem jtJumpsOnNonZero : Obligations.JtJumpsOnNonZero := by
  unfold Obligations.JtJumpsOnNonZero
  intro s p1 p2 c v hin h1 h2 h3
  simpa [exec_jt] using jumpWhen_ok_fields (cond := fun c => !isZero c) hin h1 h2 (by simpa using h3)

/-- Settles O52: shape F2, taken where the condition's value is zero. -/
theorem jfJumpsOnZero : Obligations.JfJumpsOnZero := by
  unfold Obligations.JfJumpsOnZero
  intro s p1 p2 c v hin h1 h2 h3
  simpa [exec_jf] using jumpWhen_ok_fields (cond := isZero) hin h1 h2 (by simpa using h3)

/-- Settles O54: the ALU's check passes on the exact sum. -/
theorem arbAdjustsRb : Obligations.ArbAdjustsRb := by
  unfold Obligations.ArbAdjustsRb
  exact fun s p v b hin hv hb => exec_arb_ok_fields hin hv hb

/-- Settles O55: the operand is resolved, and the ALU's check ends the step before the commit. -/
theorem arbOverflows : Obligations.ArbOverflows := by
  unfold Obligations.ArbOverflows
  intro s p v hv hout
  have hcheck : aluArb s.rb v = .error (.arithmeticOverflow .arb s.rb v) := checked_error.2 ⟨hout, rfl⟩
  rw [exec_arb_ok hv, hcheck]
  rfl

/-- Settles O56: the operand's address is formed, and its cell added, with the RB that the state has before the commit. -/
theorem relativeArbUsesTheOldRb : Obligations.RelativeArbUsesTheOldRb := by
  unfold Obligations.RelativeArbUsesTheOldRb
  intro s v b a hin haddr ha hb
  have heff : effectiveAddr s ⟨v, .relative⟩ = some (a : Int) := by rw [effectiveAddr_relative, haddr]
  have hval : resolveValue s ⟨v, .relative⟩ = .ok (s.mem.get a) :=
    resolveValue_of_validAddr heff (validAddr_natCast ha)
  obtain ⟨pc, -, h⟩ := exec_arb_ok_fields hin hval hb
  refine ⟨_, h, rfl, ?_⟩
  simp [resolutionReads, heff]

/-- Settles O57: HLT only responds, wherever PC is. -/
theorem hltChangesNothing : Obligations.HltChangesNothing := by
  unfold Obligations.HltChangesNothing
  exact fun s _ => exec_hlt_eq_respond s

end Sys2Proof.Machine
end

section
/-! PROOF. Frames: which instructions store, in which cell, and that RB is ARB's alone (R53, R181). -/

namespace Sys2Proof.Machine

/-! ### The instructions that store -/

/-- From `s` to `t` memory has changed at most by a store in the cell that the operand `p` resolves to, and then the step
has completed (R59, R119). -/
def StoredAt (p : Param) (s t : State) : Prop :=
  t.mem = s.mem ∨ ∃ ea v, resolveAddress s p = .ok ea ∧ t.mem = s.mem.put ea v ∧ t.rsp = some .continued

section

variable {p p1 p2 p3 : Param} {s t : State}

theorem StoredAt.get_eq_of_ne (h : StoredAt p s t) {ea a : Nat} (hea : resolveAddress s p = .ok ea) (ha : a ≠ ea) :
    t.mem.get a = s.mem.get a := by
  rcases h with h | ⟨ea', v, hea', h, -⟩
  · rw [h]
  · cases hea.symm.trans hea'
    rw [h, Memory.get_put_of_ne _ _ ha]

theorem StoredAt.mem_eq_of_error (h : StoredAt p s t) {e : StepError} (he : resolveAddress s p = .error e) :
    t.mem = s.mem := by
  rcases h with h | ⟨ea, v, hea, -⟩
  · exact h
  · cases he.symm.trans hea

theorem StoredAt.mem_eq_of_not_continued (h : StoredAt p s t) (hr : t.rsp ≠ some .continued) : t.mem = s.mem :=
  h.resolve_right fun ⟨_, _, _, _, hc⟩ => hr hc

/-- Shape F3 stores at its third operand, if at all, and leaves RB, MEM_LEN and the host's side as they are. -/
theorem storeResult_frame {f : Cell → Cell → Except StepError Cell} (h : storeResult f p1 p2 p3 s = .next t) :
    StoredAt p3 s t ∧ t.rb = s.rb ∧ t.memLen = s.memLen ∧ t.inAnswers = s.inAnswers ∧ t.outAcks = s.outAcks ∧
      t.outputs = s.outputs := by
  rcases storeResult_next h with ⟨es, e, -, rfl, -⟩ | ⟨a, b, ea, r, -, -, hea, -, -, rfl⟩
  · exact ⟨.inl rfl, rfl, rfl, rfl, rfl, rfl⟩
  · exact ⟨.inr ⟨ea, r, hea, rfl, rfl⟩, rfl, rfl, rfl, rfl, rfl⟩

/-- IN stores at its operand, if at all. -/
theorem exec_inp_storedAt (h : exec (.inp p) s = .next t) : StoredAt p s t := by
  rw [exec_inp] at h
  rcases withTarget_next h with ⟨e, -, rfl⟩ | ⟨ea, hea, h⟩
  · exact .inl rfl
  · rcases takeInput_next h with ⟨-, rfl⟩ | ⟨v, rest, -, -, rfl⟩ | ⟨rest, -, rfl⟩
    · exact .inl rfl
    · exact .inr ⟨ea, v, hea, rfl, rfl⟩
    · exact .inl rfl

end

/-- Settles O41: the four instructions are shape F3. -/
theorem storingInstructionsFrame : Obligations.StoringInstructionsFrame := by
  unfold Obligations.StoringInstructionsFrame
  intro s t p1 p2 p3 h
  obtain ⟨f, hf⟩ : ∃ f, storeResult f p1 p2 p3 s = .next t := by
    rcases h with h | h | h | h <;> exact ⟨_, h⟩
  obtain ⟨hstored, hrb, hlen, hin, hacks, hout⟩ := storeResult_frame hf
  refine ⟨hrb, hlen, hin, hacks, hout, fun ea hea a ha => hstored.get_eq_of_ne hea ha,
    fun e he => hstored.mem_eq_of_error he, fun e he => hstored.mem_eq_of_not_continued ?_⟩
  rw [he]
  nofun

/-- Settles O49: IN stores at its operand alone, and without a target it comes to no handshake. -/
theorem inFrame : Obligations.InFrame := by
  unfold Obligations.InFrame
  intro s t p h
  have hx := exec_next h
  have hstored := exec_inp_storedAt h
  obtain ⟨hout, hacks⟩ := hx.outSide_eq (by simp)
  refine ⟨hx.rb_eq (by simp), hx.memLen_eq, hacks, hout, fun ea hea a ha => hstored.get_eq_of_ne hea ha,
    fun e he => ⟨hstored.mem_eq_of_error he, ?_⟩, hstored.mem_eq_of_not_continued⟩
  rw [exec_inp_error he] at h
  cases h
  rfl

/-! ### The instructions that store nothing -/

section

variable {p p1 p2 : Param} {s t : State}

theorem exec_out_mem (h : exec (.out p) s = .next t) : t.mem = s.mem := by
  rw [exec_out] at h
  rcases withValue_next h with ⟨e, -, rfl⟩ | ⟨v, -, h⟩
  · rfl
  · exact (giveOutput_frame h).1

theorem jumpWhen_mem {cond : Cell → Bool} (h : jumpWhen cond p1 p2 s = .next t) : t.mem = s.mem := by
  rcases jumpWhen_next h with ⟨es, e, -, rfl, -⟩ | ⟨c, v, n, -, -, -, -, rfl⟩ <;> rfl

theorem exec_arb_mem (h : exec (.arb p) s = .next t) : t.mem = s.mem := by
  rw [exec_arb] at h
  rcases withValue_next h with ⟨e, -, rfl⟩ | ⟨v, -, h⟩
  · rfl
  rcases orRaise_next h with ⟨e, -, rfl⟩ | ⟨b, -, h⟩
  · rfl
  · obtain ⟨-, rfl⟩ := commit_next h
    rfl

theorem exec_hlt_mem (h : exec .hlt s = .next t) : t.mem = s.mem := by
  rw [exec_hlt_eq_respond] at h
  cases h
  rfl

end

/-- Settles O50: no write in any of the five, and only ARB, OUT and IN touch what is theirs. -/
theorem nonStoringInstructionsFrame : Obligations.NonStoringInstructionsFrame := by
  unfold Obligations.NonStoringInstructionsFrame
  intro i s t hi h
  have hx := exec_next h
  have hmem : t.mem = s.mem := by
    rcases hi with ⟨p, rfl⟩ | ⟨p1, p2, rfl⟩ | ⟨p1, p2, rfl⟩ | ⟨p, rfl⟩ | rfl
    · exact exec_out_mem h
    · exact jumpWhen_mem h
    · exact jumpWhen_mem h
    · exact exec_arb_mem h
    · exact exec_hlt_mem h
  have hnotIn : ∀ p, i ≠ .inp p := by
    rintro p rfl
    simp at hi
  exact ⟨hmem, hx.memLen_eq, hx.inAnswers_eq hnotIn, hx.rb_eq, hx.outSide_eq⟩

/-! ### RB -/

/-- The state with another RB. -/
def State.withRb (rb : Cell) (s : State) : State := { s with rb := rb }

/-- Every update of a step but ARB's commit goes past a change of RB. -/
theorem blind_withRb (rb : Cell) : Blind (State.withRb rb) where
  log _ _ := rfl
  respond _ _ := rfl
  wait _ _ := rfl
  answered _ _ := rfl
  accepted _ _ _ := rfl
  committed s eff h := by simp [State.withRb, State.committed, h]
  pc _ := rfl
  inAnswers _ := rfl
  outAcks _ := rfl

/-- An operand that is not Relative is resolved without RB (R57). -/
theorem blindTo_withRb (rb : Cell) {p : Param} (hp : p.m ≠ .relative) : BlindTo (State.withRb rb) p := by
  obtain ⟨v, m⟩ := p
  cases m with
  | position => exact fun _ => ⟨rfl, rfl, rfl⟩
  | immediate => exact fun _ => ⟨rfl, rfl, rfl⟩
  | relative => exact absurd rfl hp

/-- Settles O35: no other instruction's effect has an RB, and a change of RB goes through one that resolves nothing with
it. -/
theorem onlyArbWritesRb : Obligations.OnlyArbWritesRb := by
  unfold Obligations.OnlyArbWritesRb
  refine ⟨fun i s t h hne => ?_, fun i s t rb harb hrel h => ?_⟩
  · by_contra hno
    exact hne ((exec_next h).rb_eq fun p hp => hno ⟨p, hp⟩)
  · have hblind := exec_blind (blind_withRb rb) (fun p hp => blindTo_withRb rb (hrel p hp))
      (fun p hp => absurd hp (harb p)) s
    rwa [h, mapNext_next] at hblind

end Sys2Proof.Machine
end

section
/-! PROOF. The host's acts between steps and reset: what they do to the invariants, and that a step outstanding refuses them
(R43, R46, R240 to R249). -/

namespace Sys2Proof.Machine

open Sys2Proof.Safety

section

variable {s t u : State}

theorem betweenSteps_idle (t : State) (h : s.phase = .idle) : betweenSteps s t = .next t := if_pos h

theorem betweenSteps_waiting (t : State) (h : s.phase ≠ .idle) : betweenSteps s t = .refused .hostAccessDuringStep :=
  if_neg h

theorem betweenSteps_next (h : betweenSteps s t = .next u) : s.phase = .idle ∧ u = t := by
  unfold betweenSteps at h
  split at h
  · exact ⟨by assumption, by simpa using h.symm⟩
  · cases h

theorem hostWriteCell_in_memory {a : Nat} (v : Cell) (h : a < s.memLen.val) :
    hostWriteCell a v s = betweenSteps s { s with mem := s.mem.put a v } := if_pos h

theorem hostWriteCell_next {a : Nat} {v : Cell} (h : hostWriteCell a v s = .next t) :
    a < s.memLen.val ∧ s.phase = .idle ∧ t = { s with mem := s.mem.put a v } := by
  by_cases ha : a < s.memLen.val
  · exact ⟨ha, betweenSteps_next (hostWriteCell_in_memory v ha ▸ h)⟩
  · simp [hostWriteCell, ha] at h

theorem hostGrow_of_le {n : MemLen} (h : s.memLen.val ≤ n.val) :
    hostGrow n s = betweenSteps s { s with memLen := n } := if_pos h

theorem hostGrow_of_lt {n : MemLen} (h : n.val < s.memLen.val) : hostGrow n s = .refused .memoryShrunk :=
  if_neg (Nat.not_le.2 h)

theorem hostGrow_next {n : MemLen} (h : hostGrow n s = .next t) :
    s.memLen.val ≤ n.val ∧ s.phase = .idle ∧ t = { s with memLen := n } := by
  rcases Nat.lt_or_ge n.val s.memLen.val with hn | hn
  · cases (hostGrow_of_lt hn).symm.trans h
  · exact ⟨hn, betweenSteps_next (hostGrow_of_le hn ▸ h)⟩

/-- A cell past a memory inside MEM_LEN reads 0 (R246). -/
theorem get_past_memLen {a : Nat} (h : MemInv s) (ha : s.memLen.val ≤ a) : s.mem.get a = Cell.zero :=
  Memory.get_of_above fun e he => Nat.ne_of_lt (lt_of_lt_of_le (h.2 e he) ha)

/-- More cells leave memory inside MEM_LEN. -/
theorem memInv_grow {n : MemLen} (h : MemInv s) (hn : s.memLen.val ≤ n.val) : MemInv { s with memLen := n } := by
  obtain ⟨hwf, hin⟩ := h
  exact ⟨hwf, fun e he => lt_of_lt_of_le (hin e he) hn⟩

/-- An image that boots fits (R241). -/
theorem boot_next {image : List Cell} {memLen : MemLen} (h : boot image memLen = .next s) :
    image.length ≤ memLen.val ∧ s = { State.reset with mem := Memory.place [] 0 image, memLen := memLen } := by
  unfold boot at h
  split at h
  · exact ⟨by assumption, by simpa using h.symm⟩
  · cases h

/-- The invariants hold after every reset: the image is placed below its length, no port is used and nothing waits. -/
theorem boot_inv {image : List Cell} {memLen : MemLen} (h : boot image memLen = .next s) : Inv s ∧ PortInv s := by
  obtain ⟨hfits, rfl⟩ := boot_next h
  refine ⟨⟨⟨Memory.wf_place 0 image rfl, fun e he => ?_⟩, waitInv_of_idle rfl⟩, ?_⟩
  · rcases Memory.mem_place he with hlt | hnil
    · simp only at hlt ⊢
      omega
    · cases hnil
  · exact (NoWrites.nil.mono (by decide) (by decide)).portInv (FinalWrite.none rfl) rfl rfl

end

/-- Settles O2: `State.reset` is the boot of the empty image, and `boot_inv` holds of every boot. -/
theorem resetHoldsTheInvariants : Obligations.ResetHoldsTheInvariants := by
  unfold Obligations.ResetHoldsTheInvariants
  have hreset : boot [] 0 = .next State.reset := rfl
  obtain ⟨hinv, hports⟩ := boot_inv hreset
  exact ⟨fun image memLen s h => boot_inv h, hreset, hinv, hports⟩

/-- Settles O3: only MEM_LEN changes, and the cells it appends were not listed. -/
theorem hostGrowthAppendsZeros : Obligations.HostGrowthAppendsZeros := by
  unfold Obligations.HostGrowthAppendsZeros
  refine fun s n hmem hidle => ⟨fun hn => ?_, hostGrow_of_lt⟩
  exact ⟨_, (hostGrow_of_le hn).trans (betweenSteps_idle _ hidle), rfl, fun _ _ => rfl,
    fun a ha _ => get_past_memLen (s := s) hmem ha⟩

/-- Settles O4: the acts on memory, MEM_LEN, PC and RB find nothing waiting, and the other two touch neither memory nor the
wait. -/
theorem hostActsKeepTheInvariants : Obligations.HostActsKeepTheInvariants := by
  unfold Obligations.HostActsKeepTheInvariants
  intro s t hinv hact
  obtain ⟨hmem, hwait⟩ := id hinv
  rcases hact with ⟨a, v, h⟩ | ⟨pc, h⟩ | ⟨rb, h⟩ | ⟨n, h⟩ | ⟨a, rfl⟩ | rfl
  · obtain ⟨ha, hidle, rfl⟩ := hostWriteCell_next h
    exact ⟨memInv_put hmem ha v, waitInv_of_idle hidle⟩
  · obtain ⟨hidle, rfl⟩ := betweenSteps_next h
    exact ⟨hmem, waitInv_of_idle hidle⟩
  · obtain ⟨hidle, rfl⟩ := betweenSteps_next h
    exact ⟨hmem, waitInv_of_idle hidle⟩
  · obtain ⟨hn, hidle, rfl⟩ := hostGrow_next h
    exact ⟨memInv_grow hmem hn, waitInv_of_idle hidle⟩
  · exact hinv
  · exact hinv

/-- Settles O5: past their other checks the writes are `betweenSteps`, and the reads need the phase to be idle. -/
theorem hostActsAreRefusedDuringAStep : Obligations.HostActsAreRefusedDuringAStep := by
  unfold Obligations.HostActsAreRefusedDuringAStep
  intro s hwait
  refine ⟨fun a v ha => ?_, fun pc => betweenSteps_waiting _ hwait, fun rb => betweenSteps_waiting _ hwait,
    fun n hn => ?_, fun a => if_neg fun h => hwait h.1, if_neg hwait⟩
  · rw [hostWriteCell_in_memory v ha, betweenSteps_waiting _ hwait]
  · rw [hostGrow_of_le hn, betweenSteps_waiting _ hwait]

end Sys2Proof.Machine
end

section
/-! PROOF. The step as a whole: the instruction it runs, the operand cell it cannot fetch, and the error it repeats (R111,
R114, R124, R207). -/

namespace Sys2Proof.Machine

open Sys2Proof.Safety

/-- Operand assembly looks at the operand cells alone (R94). -/
theorem assemble_congr (d : Decoded) {c c' : Nat → Cell} (h : ∀ k, k < d.op.arity → c (k + 1) = c' (k + 1)) :
    d.assemble c = d.assemble c' := by
  have h1 := h 0
  have h2 := h 1
  have h3 := h 2
  obtain ⟨op, m1, m2, m3⟩ := d
  cases op <;> simp_all [Decoded.assemble, Opcode.arity, Opcode.kinds]

/-- A new step at an instruction that lies in memory, with the state it runs on written out. -/
theorem step_runs {s : State} {d : Decoded} (hidle : s.phase = .idle) (hd : decodeWord (s.cellAtPc 0) = .ok d)
    (hlen : s.pc.toNat + d.op.length ≤ s.memLen.val) :
    step s = exec (d.assemble s.cellAtPc) { s with rsp := none, events := fetchReads s d.op.length 0 } :=
  (step_idle hidle).trans (startStep_ok hd hlen)

/-- Settles O20: `step_runs` with the word at PC. -/
theorem stepRunsTheDecodedInstruction : Obligations.StepRunsTheDecodedInstruction := by
  unfold Obligations.StepRunsTheDecodedInstruction
  intro s w d hat hd hlen
  obtain ⟨hidle, -, rfl⟩ := hat
  exact step_runs hidle hd hlen

/-- Settles O21: the cells that `decode` reads are those that the step fetches. -/
theorem stepRunsTheCellsAtPc : Obligations.StepRunsTheCellsAtPc := by
  unfold Obligations.StepRunsTheCellsAtPc
  intro s cs rest i hidle hcells h
  obtain ⟨w, tail, d, rfl, hd, harity, rfl, -⟩ := decode_ok h
  obtain ⟨hin, hcell⟩ := hcells
  have hword : s.cellAtPc 0 = w := hcell 0 w rfl
  have hlen : s.pc.toNat + d.op.length ≤ s.memLen.val := by
    simp only [List.length_cons] at hin
    unfold Opcode.length
    omega
  have hoperands : ∀ k, k < d.op.arity → s.cellAtPc (k + 1) = tail.getD (k + 1 - 1) Config.unlistedCell := by
    intro k hk
    have hk' : k < tail.length := lt_of_lt_of_le hk harity
    rw [Nat.add_sub_cancel, List.getD_eq_getElem _ _ hk']
    exact hcell (k + 1) _ (List.getElem?_eq_getElem hk')
  rw [step_runs hidle (hword ▸ hd) hlen, opcode_assemble,
    assemble_congr d (c' := fun k => tail.getD (k - 1) Config.unlistedCell) hoperands]

/-- The fetch of an instruction whose operand cell `1 + m` is the first past the end of memory (R114). -/
theorem fetchInstr_operand_error {s : State} {d : Decoded} {m : Nat} (hd : decodeWord (s.cellAtPc 0) = .ok d)
    (hm : m < d.op.arity) (hin : s.pc.toNat + m < s.memLen.val) (hout : s.memLen.val ≤ s.pc.toNat + 1 + m) :
    fetchInstr s =
      (.error (.invalidAddress ((s.pc.toNat + 1 + m : Nat) : Int) none), s.log (fetchReads s (m + 1) 0)) := by
  have hword := fetchCell_ok (s := s) (k := 0) (by omega)
  have hoperand := fetchCells_error (s := s.log [.memRead (s.pc.toNat + 0) (s.cellAtPc 0)]) (k := 1) hm
    (.inr (show s.pc.toNat + 1 + m ≤ s.memLen.val by omega)) hout
  simp only [fetchInstr, hword, hd, hoperand, fetchReads_log, State.log_log, State.log_pc]
  rfl

/-- Settles O23: the word and the operand cells before the k-th are fetched, and the k-th cell's check ends the step. -/
theorem operandFetchPastTheEnd : Obligations.OperandFetchPastTheEnd := by
  unfold Obligations.OperandFetchPastTheEnd
  intro s w d k hat hd hk1 hk hin hout
  obtain ⟨hidle, -, rfl⟩ := hat
  obtain ⟨m, rfl⟩ : ∃ m, k = 1 + m := ⟨k - 1, by omega⟩
  rw [Nat.add_sub_cancel_left] at hin
  rw [← Nat.add_assoc] at hout ⊢
  have hfetch := fetchInstr_operand_error (s := s.begin) hd (by omega) hin hout
  refine ⟨fetchReads s.begin (m + 1) 0, ?_⟩
  simp only [step_idle hidle, startStep, hfetch, raise_eq]
  rfl

/-- Any error but InputUnavailable ends a new step, not one that went on from a wait (R204, R211). -/
theorem idle_of_step_error {s t : State} {e : StepError} (h : step s = .next t) (ht : t.rsp = some (.error e))
    (he : e ≠ .inputUnavailable) : s.phase = .idle := by
  cases hp : s.phase with
  | idle => rfl
  | awaitIn ea => exact absurd (takeInput_error (step_awaitIn hp ▸ h) ht) he
  | awaitOut v => exact absurd ht (giveOutput_rsp_ne_error (step_awaitOut hp ▸ h) e)

/-- Settles O25: the step changed only what the next one clears first, so the next one is the same step. -/
theorem errorsRepeat : Obligations.ErrorsRepeat := by
  unfold Obligations.ErrorsRepeat
  intro s t e h ht he
  have hidle := idle_of_step_error h ht he
  rw [step_idle hidle] at h
  obtain ⟨n, es, -, hres⟩ := startStep_eq_respond_of_error h ht he
  have hbegin : t.begin = s.begin := by
    rw [hres]
    simp [State.begin, State.log, State.respond, hidle]
  have hidle' : t.phase = .idle := by rw [hres]; rfl
  rw [step_idle hidle', startStep_congr hbegin, h]

end Sys2Proof.Machine
end

section
/-! PROOF. The errors of an instruction's own phases: the first operand that does not resolve is reported, and every error
has its origin in the instruction and the state (R115, R202). -/

namespace Sys2Proof.Machine

open Sys2Proof.Safety

/-! ### The first operand that does not resolve -/

/-- Operand `k` (counted from 0) of the instruction is the first that does not resolve, and `e` is its error (R115). -/
structure FirstUnresolved (i : Instr) (s : State) (k : Nat) (e : StepError) : Prop where
  isOperand : k < i.params.length
  fails : ∀ p kind, i.params[k]? = some p → i.opcode.kinds[k]? = some kind → operandError s kind p = some e
  before : ∀ j q kind, j < k → i.params[j]? = some q → i.opcode.kinds[j]? = some kind → operandError s kind q = none

section

variable {i : Instr} {s : State} {k j : Nat} {e : StepError} {p p1 p2 p3 : Param}

theorem resolveValue_of_operandError_some (h : operandError s .read p = some e) : resolveValue s p = .error e := by
  cases hv : resolveValue s p with
  | ok v => simp [operandError, hv] at h
  | error e' => simpa [operandError, hv] using h

theorem resolveValue_of_operandError_none (h : operandError s .read p = none) : ∃ v, resolveValue s p = .ok v := by
  cases hv : resolveValue s p with
  | ok v => exact ⟨v, rfl⟩
  | error e => simp [operandError, hv] at h

theorem resolveAddress_of_operandError_some (h : operandError s .write p = some e) : resolveAddress s p = .error e := by
  cases ha : resolveAddress s p with
  | ok ea => simp [operandError, ha] at h
  | error e' => simpa [operandError, ha] using h

theorem FirstUnresolved.value_error (h : FirstUnresolved i s k e) (hp : i.params[k]? = some p)
    (hk : i.opcode.kinds[k]? = some .read) : resolveValue s p = .error e :=
  resolveValue_of_operandError_some (h.fails p .read hp hk)

theorem FirstUnresolved.target_error (h : FirstUnresolved i s k e) (hp : i.params[k]? = some p)
    (hk : i.opcode.kinds[k]? = some .write) : resolveAddress s p = .error e :=
  resolveAddress_of_operandError_some (h.fails p .write hp hk)

theorem FirstUnresolved.value_ok (h : FirstUnresolved i s k e) (hj : j < k) (hp : i.params[j]? = some p)
    (hk : i.opcode.kinds[j]? = some .read) : ∃ v, resolveValue s p = .ok v :=
  resolveValue_of_operandError_none (h.before j p .read hj hp hk)

/-- Shape F3 ends at its first unresolved operand, after the reads of those before it. -/
theorem FirstUnresolved.storeResult_eq (h : FirstUnresolved i s k e) (f : Cell → Cell → Except StepError Cell)
    (hp : i.params = [p1, p2, p3]) (hk : i.opcode.kinds = [.read, .read, .write]) :
    storeResult f p1 p2 p3 s = .next ((s.log ((i.params.take k).flatMap (resolutionReads s))).respond (.error e)) := by
  have hlt : k < 3 := by simpa [hp] using h.isOperand
  obtain rfl | rfl | rfl : k = 0 ∨ k = 1 ∨ k = 2 := by omega
  · rw [storeResult_error1 (h.value_error (by simp [hp]) (by simp [hk]))]
    simp
  · obtain ⟨a, h1⟩ := h.value_ok (j := 0) (p := p1) (by decide) (by simp [hp]) (by simp [hk])
    rw [storeResult_error2 h1 (h.value_error (by simp [hp]) (by simp [hk]))]
    simp [hp]
  · obtain ⟨a, h1⟩ := h.value_ok (j := 0) (p := p1) (by decide) (by simp [hp]) (by simp [hk])
    obtain ⟨b, h2⟩ := h.value_ok (j := 1) (p := p2) (by decide) (by simp [hp]) (by simp [hk])
    rw [storeResult_error3 h1 h2 (h.target_error (by simp [hp]) (by simp [hk]))]
    simp [hp]

/-- Shape F2 ends at its first unresolved operand, after the read of the one before it. -/
theorem FirstUnresolved.jumpWhen_eq (h : FirstUnresolved i s k e) (cond : Cell → Bool) (hp : i.params = [p1, p2])
    (hk : i.opcode.kinds = [.read, .read]) :
    jumpWhen cond p1 p2 s = .next ((s.log ((i.params.take k).flatMap (resolutionReads s))).respond (.error e)) := by
  have hlt : k < 2 := by simpa [hp] using h.isOperand
  obtain rfl | rfl : k = 0 ∨ k = 1 := by omega
  · rw [jumpWhen_error1 (h.value_error (by simp [hp]) (by simp [hk]))]
    simp
  · obtain ⟨c, h1⟩ := h.value_ok (j := 0) (p := p1) (by decide) (by simp [hp]) (by simp [hk])
    rw [jumpWhen_error2 h1 (h.value_error (by simp [hp]) (by simp [hk]))]
    simp [hp]

/-- Every instruction ends at its first unresolved operand, after the reads of those before it (R115). -/
theorem FirstUnresolved.exec_eq (h : FirstUnresolved i s k e) :
    exec i s = .next ((s.log ((i.params.take k).flatMap (resolutionReads s))).respond (.error e)) := by
  have hlt := h.isOperand
  cases i with
  | add p1 p2 p3 => exact h.storeResult_eq _ rfl rfl
  | mul p1 p2 p3 => exact h.storeResult_eq _ rfl rfl
  | lt p1 p2 p3 => exact h.storeResult_eq _ rfl rfl
  | eq p1 p2 p3 => exact h.storeResult_eq _ rfl rfl
  | jt p1 p2 => exact h.jumpWhen_eq _ rfl rfl
  | jf p1 p2 => exact h.jumpWhen_eq _ rfl rfl
  | inp p =>
    obtain rfl : k = 0 := Nat.lt_one_iff.1 hlt
    simpa using exec_inp_error (h.target_error rfl rfl)
  | out p =>
    obtain rfl : k = 0 := Nat.lt_one_iff.1 hlt
    simpa using exec_out_error (h.value_error rfl rfl)
  | arb p =>
    obtain rfl : k = 0 := Nat.lt_one_iff.1 hlt
    simpa using exec_arb_error (h.value_error rfl rfl)
  | hlt => exact absurd hlt (Nat.not_lt_zero k)

end

/-- Settles O17: the hypotheses say that operand k is the first unresolved one, where every instruction ends. -/
theorem firstUnresolvedOperandIsReported : Obligations.FirstUnresolvedOperandIsReported := by
  unfold Obligations.FirstUnresolvedOperandIsReported
  intro i s k p kind e hp hk herr hbefore
  have hfirst : FirstUnresolved i s k e := by
    refine ⟨(List.getElem?_eq_some_iff.1 hp).1, fun p' kind' hp' hk' => ?_, hbefore⟩
    cases hp.symm.trans hp'
    cases hk.symm.trans hk'
    exact herr
  exact hfirst.exec_eq

/-! ### Where an error comes from -/

/-- The errors that an instruction can end with in `s`, each with what gives rise to it (R202). -/
inductive ErrorOrigin (i : Instr) (s : State) : StepError → Prop where
  /-- An operand's effective address is not valid (R55). -/
  | operand (q : Param) (a : Int) (isOperand : q ∈ i.params) (address : effectiveAddr s q = some a)
      (invalid : ¬ s.validAddr a) : ErrorOrigin i s (.invalidAddress a (some q))
  /-- The term has an Immediate `out` operand (log entry 13). -/
  | mode (malformed : i.wellFormed = false) : ErrorOrigin i s (.invalidAddressingMode 1)
  /-- A taken jump's target is negative (R122). -/
  | target (p1 q : Param) (v : Cell) (jump : i = .jt p1 q ∨ i = .jf p1 q) (value : resolveValue s q = .ok v)
      (negative : v.val < 0) : ErrorOrigin i s (.invalidAddress v.val (some q))
  /-- The host has answered IN with a failure (R150). -/
  | input (p : Param) (isIn : i = .inp p) (answer : s.inAnswers.head? = some .fail) : ErrorOrigin i s .inputUnavailable
  | add (p1 p2 p3 : Param) (a b : Cell) (isAdd : i = .add p1 p2 p3) (value1 : resolveValue s p1 = .ok a)
      (value2 : resolveValue s p2 = .ok b) (overflow : ¬ InInt64 (a.val + b.val)) :
      ErrorOrigin i s (.arithmeticOverflow .add a b)
  | mul (p1 p2 p3 : Param) (a b : Cell) (isMul : i = .mul p1 p2 p3) (value1 : resolveValue s p1 = .ok a)
      (value2 : resolveValue s p2 = .ok b) (overflow : ¬ InInt64 (a.val * b.val)) :
      ErrorOrigin i s (.arithmeticOverflow .mul a b)
  | arb (p : Param) (b : Cell) (isArb : i = .arb p) (value : resolveValue s p = .ok b)
      (overflow : ¬ InInt64 (s.rb.val + b.val)) : ErrorOrigin i s (.arithmeticOverflow .arb s.rb b)

section

variable {i : Instr} {s t : State} {e : StepError} {p q p1 p2 p3 : Param}

theorem effectiveAddr_eq_none (h : effectiveAddr s p = none) : p.m = .immediate := by
  obtain ⟨v, m⟩ := p
  cases m with
  | position => cases h
  | relative => cases h
  | immediate => rfl

theorem errorOrigin_of_value (hq : q ∈ i.params) (h : resolveValue s q = .error e) : ErrorOrigin i s e := by
  cases ha : effectiveAddr s q with
  | none => cases (resolveValue_of_effectiveAddr_none ha).symm.trans h
  | some a =>
    by_cases hv : s.validAddr a
    · cases (resolveValue_of_validAddr ha hv).symm.trans h
    · cases (resolveValue_of_not_validAddr ha hv).symm.trans h
      exact .operand q a hq ha hv

/-- A term with an Immediate operand in an `out` position has no encoding (R88). -/
theorem wellFormed_eq_false {k : Nat} (hp : i.params[k]? = some p) (hk : i.opcode.kinds[k]? = some .write)
    (hm : p.m = .immediate) : i.wellFormed = false :=
  Bool.eq_false_iff.2 fun hwf => mode_ne_immediate_of_write hwf hk (by simp [Instr.mode, hp, hm])

theorem errorOrigin_of_target {k : Nat} (hp : i.params[k]? = some p) (hk : i.opcode.kinds[k]? = some .write)
    (h : resolveAddress s p = .error e) : ErrorOrigin i s e := by
  cases ha : effectiveAddr s p with
  | none =>
    obtain rfl : StepError.invalidAddressingMode 1 = e := by simpa [resolveAddress, ha] using h
    exact .mode (wellFormed_eq_false hp hk (effectiveAddr_eq_none ha))
  | some a =>
    by_cases hv : s.validAddr a
    · cases (resolveAddress_of_validAddr ha hv).symm.trans h
    · cases (resolveAddress_of_not_validAddr ha hv).symm.trans h
      exact .operand p a (List.mem_of_getElem? hp) ha hv

/-- Shape F3 ends with an operand's error or with the ALU's on the two values. -/
theorem storeResult_errorOrigin {f : Cell → Cell → Except StepError Cell} (hp : i.params = [p1, p2, p3])
    (hk : i.opcode.kinds = [.read, .read, .write])
    (hf : ∀ a b, resolveValue s p1 = .ok a → resolveValue s p2 = .ok b → f a b = .error e → ErrorOrigin i s e)
    (h : storeResult f p1 p2 p3 s = .next t) (ht : t.rsp = some (.error e)) : ErrorOrigin i s e := by
  unfold storeResult at h
  rcases withValue_next h with ⟨e1, h1, rfl⟩ | ⟨a, h1, h⟩
  · cases ht
    exact errorOrigin_of_value (by simp [hp]) h1
  rcases withValue_next h with ⟨e2, h2, rfl⟩ | ⟨b, h2, h⟩
  · cases ht
    exact errorOrigin_of_value (q := p2) (by simp [hp]) h2
  rcases withTarget_next h with ⟨e3, h3, rfl⟩ | ⟨ea, h3, h⟩
  · cases ht
    exact errorOrigin_of_target (k := 2) (p := p3) (by simp [hp]) (by simp [hk]) h3
  rcases orRaise_next h with ⟨e4, h4, rfl⟩ | ⟨r, h4, h⟩
  · cases ht
    exact hf a b h1 h2 h4
  · obtain ⟨-, rfl⟩ := commit_next h
    exact absurd ht (committed_rsp_ne_error _ _ e)

/-- The jump resolver refuses a negative target, and nothing else (R122). -/
theorem jumpNext_error {taken : Bool} {v : Cell} (h : jumpNext taken v p2 s = .error e) :
    v.val < 0 ∧ e = .invalidAddress v.val (some p2) := by
  unfold jumpNext at h
  split at h
  · split at h
    · exact ⟨by assumption, by simpa using h.symm⟩
    · cases h
  · cases h

/-- Shape F2 ends with an operand's error or with the jump resolver's on the target. -/
theorem jumpWhen_errorOrigin {cond : Cell → Bool} (hi : i = .jt p1 p2 ∨ i = .jf p1 p2)
    (h : jumpWhen cond p1 p2 s = .next t) (ht : t.rsp = some (.error e)) : ErrorOrigin i s e := by
  have hp : i.params = [p1, p2] := by rcases hi with rfl | rfl <;> rfl
  unfold jumpWhen at h
  rcases withValue_next h with ⟨e1, h1, rfl⟩ | ⟨c, h1, h⟩
  · cases ht
    exact errorOrigin_of_value (by simp [hp]) h1
  rcases withValue_next h with ⟨e2, h2, rfl⟩ | ⟨v, h2, h⟩
  · cases ht
    exact errorOrigin_of_value (q := p2) (by simp [hp]) h2
  rcases orRaise_next h with ⟨e3, h3, rfl⟩ | ⟨n, h3, h⟩
  · cases ht
    obtain ⟨hneg, rfl⟩ := jumpNext_error h3
    exact .target p1 p2 v hi h2 hneg
  · obtain ⟨-, rfl⟩ := commit_next h
    exact absurd ht (committed_rsp_ne_error _ _ e)

/-- Every error of an instruction has an origin. -/
theorem errorOrigin_of_exec (h : exec i s = .next t) (ht : t.rsp = some (.error e)) : ErrorOrigin i s e := by
  cases i with
  | add p1 p2 p3 =>
    refine storeResult_errorOrigin rfl rfl (fun a b h1 h2 hf => ?_) h ht
    obtain ⟨hout, rfl⟩ := checked_error.1 hf
    exact .add p1 p2 p3 a b rfl h1 h2 hout
  | mul p1 p2 p3 =>
    refine storeResult_errorOrigin rfl rfl (fun a b h1 h2 hf => ?_) h ht
    obtain ⟨hout, rfl⟩ := checked_error.1 hf
    exact .mul p1 p2 p3 a b rfl h1 h2 hout
  | lt p1 p2 p3 =>
    refine storeResult_errorOrigin rfl rfl (fun a b h1 h2 hf => ?_) h ht
    cases hf
  | eq p1 p2 p3 =>
    refine storeResult_errorOrigin rfl rfl (fun a b h1 h2 hf => ?_) h ht
    cases hf
  | jt p1 p2 => exact jumpWhen_errorOrigin (.inl rfl) h ht
  | jf p1 p2 => exact jumpWhen_errorOrigin (.inr rfl) h ht
  | inp p =>
    rw [exec_inp] at h
    rcases withTarget_next h with ⟨e1, h1, rfl⟩ | ⟨ea, h1, h⟩
    · cases ht
      exact errorOrigin_of_target (k := 0) rfl rfl h1
    · obtain rfl := takeInput_error h ht
      obtain ⟨rest, ha, -⟩ := takeInput_eq_respond_of_error h ht
      exact .input p rfl (congrArg List.head? ha)
  | out p =>
    rw [exec_out] at h
    rcases withValue_next h with ⟨e1, h1, rfl⟩ | ⟨v, h1, h⟩
    · cases ht
      exact errorOrigin_of_value (q := p) (by simp [Instr.params]) h1
    · exact absurd ht (giveOutput_rsp_ne_error h e)
  | arb p =>
    rw [exec_arb] at h
    rcases withValue_next h with ⟨e1, h1, rfl⟩ | ⟨v, h1, h⟩
    · cases ht
      exact errorOrigin_of_value (q := p) (by simp [Instr.params]) h1
    rcases orRaise_next h with ⟨e2, h2, rfl⟩ | ⟨b, h2, h⟩
    · cases ht
      obtain ⟨hout, rfl⟩ := checked_error.1 h2
      exact .arb p v rfl h1 hout
    · obtain ⟨-, rfl⟩ := commit_next h
      exact absurd ht (committed_rsp_ne_error _ _ e)
  | hlt =>
    rw [exec_hlt_eq_respond] at h
    cases h
    cases ht

end

/-- Settles O26: each origin is the statement's case for its error. -/
theorem errorsByInstruction : Obligations.ErrorsByInstruction := by
  unfold Obligations.ErrorsByInstruction
  intro i s t e h ht
  cases errorOrigin_of_exec h ht with
  | operand q a hq ha hv => exact ⟨q, hq, rfl, .inl ⟨ha, hv⟩⟩
  | mode hwf => exact ⟨rfl, hwf⟩
  | target p1 q v hi hv hneg =>
    have hq : q ∈ i.params := by rcases hi with rfl | rfl <;> simp [Instr.params]
    exact ⟨q, hq, rfl, .inr ⟨hneg, ⟨v, hv, rfl⟩, hi.imp (fun hi => ⟨p1, hi⟩) fun hi => ⟨p1, hi⟩⟩⟩
  | input p hi ha => exact ⟨⟨p, hi⟩, ha⟩
  | add p1 p2 p3 a b hi h1 h2 hout => exact ⟨hout, p1, p2, p3, hi, h1, h2⟩
  | mul p1 p2 p3 a b hi h1 h2 hout => exact ⟨hout, p1, p2, p3, hi, h1, h2⟩
  | arb p b hi h1 hout => exact ⟨hout, rfl, p, hi, h1⟩

end Sys2Proof.Machine
end
